-- ==== Sys2Proof/Word.lean ====
section
/-! DEFINITION. The 256-bit word, the signed word and the named constants of 00_scope.md. -/

namespace Sys2Proof

/-- A bus value of W = 256 bits; bit `i` has weight `2 ^ i` (R8, R12). -/
abbrev Word := BitVec 256

/-! An SWord (R9) is the `Int` it stands for, in `[MINS, MAXS]`. It is carried on a bus as the pattern `u256 s`, and a
pattern `w` is read as the SWord `s256 w` (R13, Machine/Operands.lean). -/

/-- `MAXW = 2^256 − 1` (R21). -/
def maxW : Nat := 2 ^ 256 - 1

/-- `MINS = −2^255` (R21). -/
def minS : Int := -(2 ^ 255)

/-- `MAXS = 2^255 − 1` (R21). -/
def maxS : Int := 2 ^ 255 - 1

/-- The wad scale `10^18` (R11 Table 2). -/
def wad : Nat := 10 ^ 18

end Sys2Proof
end

