-- ==== Sys2Proof/Syntax.lean ====
section
/-! DEFINITION. Commands and instructions: the packet on the command port, the command tuple of 10_state.md R41,
and the twelve instructions of 30_encoding.md R84. -/

namespace Sys2Proof

/-- The four buses of the command port as they stand at one edge (R40 Table 1, R80): `cmd_word`, `cmd_a`,
`cmd_b`, `cmd_c`. -/
structure Packet where
  word : BitVec 32
  a : Word
  b : Word
  c : Word
deriving DecidableEq, Repr

/-- A command: the tuple `(OP, RND, TAG, RSV, A, B, C)` (R41, R81). Every packet is one, legal or not. -/
structure Command where
  op : BitVec 5
  rnd : Bool
  tag : BitVec 8
  rsv : BitVec 18
  a : Word
  b : Word
  c : Word
deriving DecidableEq, Repr

/-- A legal command as an instruction: one constructor per row of the opcode table (R84 Table 2). Each holds its
tag, the roundUp flag where the opcode has one, and the operand patterns the opcode reads, in the order A, B, C;
operands it does not read are ignored (R83; log entry 20). -/
inductive Instr where
  /-- OP 0x00, `averageUnsigned` (R100). -/
  | avgu (tag : BitVec 8) (x y : Word)
  /-- OP 0x01, `averageSigned` (R102). -/
  | avgs (tag : BitVec 8) (x y : Word)
  /-- OP 0x02, `ceilDiv` (R104). -/
  | ceildiv (tag : BitVec 8) (x y : Word)
  /-- OP 0x03, `isNegative` (R106). -/
  | isneg (tag : BitVec 8) (x : Word)
  /-- OP 0x04, `mulDiv` (R124). -/
  | muldiv (tag : BitVec 8) (up : Bool) (x y d : Word)
  /-- OP 0x05, `log2` (R141). -/
  | log2 (tag : BitVec 8) (up : Bool) (x : Word)
  /-- OP 0x06, `log10` (R144). -/
  | log10 (tag : BitVec 8) (up : Bool) (x : Word)
  /-- OP 0x07, `log256` (R147). -/
  | log256 (tag : BitVec 8) (up : Bool) (x : Word)
  /-- OP 0x08, `wadLn` (R164). -/
  | wadln (tag : BitVec 8) (x : Word)
  /-- OP 0x09, `wadExp` (R184). -/
  | wadexp (tag : BitVec 8) (x : Word)
  /-- OP 0x0A, `cbrt` (R206). -/
  | cbrt (tag : BitVec 8) (up : Bool) (x : Word)
  /-- OP 0x0B, `wadCbrt` (R202). -/
  | wadcbrt (tag : BitVec 8) (x : Word)
deriving DecidableEq, Repr

/-- The tag of an instruction, which its response carries back (R86). -/
def Instr.tag : Instr → BitVec 8
  | .avgu t _ _ => t
  | .avgs t _ _ => t
  | .ceildiv t _ _ => t
  | .isneg t _ => t
  | .muldiv t _ _ _ _ => t
  | .log2 t _ _ => t
  | .log10 t _ _ => t
  | .log256 t _ _ => t
  | .wadln t _ => t
  | .wadexp t _ => t
  | .cbrt t _ _ => t
  | .wadcbrt t _ => t

/-- The named hardware units of R3 Table 1. The assignment of operations to them is structural: it changes no result. -/
inductive HwUnit where
  | averageNoOverflowAdder
  | divider
  | wideMultiplier
  | log2BarrelShifter
  | integerLog10RadixDecoder
  | fixedPointLnCordicApprox
  | fixedPointExpRationalPoly
  | cbrtNewtonRaphsonPipeline
deriving DecidableEq, Repr

end Sys2Proof
end

