-- ==== Sys2Proof/WellFormed.lean ====
section
/-! DEFINITION. Which commands are legal (30_encoding.md R88). The fields of `Instr` have exactly the widths of the
encoding, so every `Instr` is well formed; the checks are on the command tuple, which the host may fill at will. -/

namespace Sys2Proof

/-- R88 (a): every reserved bit is 0. -/
def Command.reservedClear (c : Command) : Bool := c.rsv == 0

/-- R88 (b): the opcode is one of the assigned values 0x00 to 0x0B (R84, R87). -/
def Command.opAssigned (c : Command) : Bool := c.op.toNat < 0x0C

/-- The opcodes whose source function has a roundUp argument: MULDIV, LOG2, LOG10, LOG256, CBRT (R84, R89). -/
def Command.takesRoundUp (c : Command) : Bool :=
  c.op == 0x04 || c.op == 0x05 || c.op == 0x06 || c.op == 0x07 || c.op == 0x0A

/-- R88 (c): RND is 1 only on an opcode with a roundUp argument. -/
def Command.roundUpAllowed (c : Command) : Bool := !c.rnd || c.takesRoundUp

/-- A command is legal when none of R88 (a), (b), (c) makes it ILLEGAL. -/
def Command.legal (c : Command) : Bool := c.reservedClear && c.opAssigned && c.roundUpAllowed

end Sys2Proof
end

