-- ==== Sys2Proof/Decode.lean ====
section
/-! DEFINITION. Decoding a packet, total, refusing by name, and after it the encoder (30_encoding.md R80 to R89). -/

namespace Sys2Proof

/-- Why a packet is no instruction: the three cases of R88. The machine answers each with STATUS ILLEGAL. -/
inductive Illegal where
  /-- R88 (a): a reserved bit of the command word is set. -/
  | reservedBits
  /-- R88 (b): OP is 0x0C to 0x1F (R87). -/
  | reservedOpcode
  /-- R88 (c): RND = 1 on an opcode without a roundUp argument. -/
  | roundUpNotAllowed
deriving DecidableEq, Repr

/-- The fields of the command word (R81 Table 1): OP 4:0, RND 8, TAG 23:16, and RSV the concatenation
`cmd_word[31:24] ++ cmd_word[15:9] ++ cmd_word[7:5]`. -/
def Packet.toCommand (p : Packet) : Command where
  op := p.word.extractLsb' 0 5
  rnd := p.word.getLsbD 8
  tag := p.word.extractLsb' 16 8
  rsv := p.word.extractLsb' 24 8 ++ p.word.extractLsb' 9 7 ++ p.word.extractLsb' 5 3
  a := p.a
  b := p.b
  c := p.c

/-- An opcode without a roundUp argument (R88 (c)). -/
def withoutRoundUp (rnd : Bool) (i : Instr) : Except Illegal Instr :=
  if rnd then .error .roundUpNotAllowed else .ok i

/-- The instruction of a command (R84 Table 2, R88), with the operands bound in the order A, B, C (R83). -/
def decodeCommand (k : Command) : Except Illegal Instr :=
  if k.rsv ≠ 0 then .error .reservedBits
  else match k.op.toNat with
    | 0x00 => withoutRoundUp k.rnd (.avgu k.tag k.a k.b)
    | 0x01 => withoutRoundUp k.rnd (.avgs k.tag k.a k.b)
    | 0x02 => withoutRoundUp k.rnd (.ceildiv k.tag k.a k.b)
    | 0x03 => withoutRoundUp k.rnd (.isneg k.tag k.a)
    | 0x04 => .ok (.muldiv k.tag k.rnd k.a k.b k.c)
    | 0x05 => .ok (.log2 k.tag k.rnd k.a)
    | 0x06 => .ok (.log10 k.tag k.rnd k.a)
    | 0x07 => .ok (.log256 k.tag k.rnd k.a)
    | 0x08 => withoutRoundUp k.rnd (.wadln k.tag k.a)
    | 0x09 => withoutRoundUp k.rnd (.wadexp k.tag k.a)
    | 0x0A => .ok (.cbrt k.tag k.rnd k.a)
    | 0x0B => withoutRoundUp k.rnd (.wadcbrt k.tag k.a)
    | _ => .error .reservedOpcode

/-- Decoding, on any packet. -/
def decodePacket (p : Packet) : Except Illegal Instr := decodeCommand p.toCommand

/-- A packet's 800 bits as one number: the command word is bits 31..0 and the operands A, B, C follow it. The spec
gives the four buses no common numbering (R62), so the order of the operands above bit 31 is a DESIGN CHOICE (log entry 15). -/
def Packet.toBits (p : Packet) : Nat :=
  p.word.toNat + p.a.toNat * 2 ^ 32 + p.b.toNat * 2 ^ 288 + p.c.toNat * 2 ^ 544

/-- The packet of a number laid out by `Packet.toBits`. -/
def Packet.ofBits (n : Nat) : Packet where
  word := BitVec.ofNat 32 n
  a := BitVec.ofNat 256 (n >>> 32)
  b := BitVec.ofNat 256 (n >>> 288)
  c := BitVec.ofNat 256 (n >>> 544)

/-- The packet whose low `nbits` bits are those of `w` and whose other bits are 0. -/
def packetOfTableWord (nbits w : Nat) : Packet := Packet.ofBits (w % 2 ^ nbits)

/-- The instruction this decoder reads from a row of spec/opcode_table.json: the row's 32 bits are the command word
and the operands are 0. -/
def decodeTableWord (nbits w : Nat) : Option Instr :=
  match decodePacket (packetOfTableWord nbits w) with
  | .ok i => some i
  | .error _ => none

/-! ## The encoder -/

/-- The command word of a legal command, `00000000 tttttttt 0000000r 000ooooo`: TAG at bit 16, RND at bit 8, OP at bit 0,
every reserved bit 0 (R81). -/
def commandWord (op : BitVec 5) (rnd : Bool) (tag : BitVec 8) : BitVec 32 :=
  tag.setWidth 32 <<< 16 ||| (BitVec.ofBool rnd).setWidth 32 <<< 8 ||| op.setWidth 32

/-- The packet of an instruction (R81, R84 Table 2). An operand the opcode does not read is encoded as 0 (R90). -/
def encode : Instr → Packet
  | .avgu t x y => ⟨commandWord 0x00 false t, x, y, 0⟩
  | .avgs t x y => ⟨commandWord 0x01 false t, x, y, 0⟩
  | .ceildiv t x y => ⟨commandWord 0x02 false t, x, y, 0⟩
  | .isneg t x => ⟨commandWord 0x03 false t, x, 0, 0⟩
  | .muldiv t up x y d => ⟨commandWord 0x04 up t, x, y, d⟩
  | .log2 t up x => ⟨commandWord 0x05 up t, x, 0, 0⟩
  | .log10 t up x => ⟨commandWord 0x06 up t, x, 0, 0⟩
  | .log256 t up x => ⟨commandWord 0x07 up t, x, 0, 0⟩
  | .wadln t x => ⟨commandWord 0x08 false t, x, 0, 0⟩
  | .wadexp t x => ⟨commandWord 0x09 false t, x, 0, 0⟩
  | .cbrt t up x => ⟨commandWord 0x0A up t, x, 0, 0⟩
  | .wadcbrt t x => ⟨commandWord 0x0B false t, x, 0, 0⟩

/-! ## The opcode table -/

/-- A row of spec/opcode_table.json: its mnemonic, and the mask and match of its command words. -/
structure OpRow where
  mnemonic : String
  mask : BitVec 32
  value : BitVec 32
deriving DecidableEq, Repr

/-- A command word belongs to a row. -/
def OpRow.covers (r : OpRow) (w : BitVec 32) : Bool := w &&& r.mask == r.value

/-- spec/opcode_table.json, row for row. -/
def opcodeTable : List OpRow := [
  ⟨"AVGU", 0xFF00FFFF, 0x00000000⟩,
  ⟨"AVGS", 0xFF00FFFF, 0x00000001⟩,
  ⟨"CEILDIV", 0xFF00FFFF, 0x00000002⟩,
  ⟨"ISNEG", 0xFF00FFFF, 0x00000003⟩,
  ⟨"MULDIV", 0xFF00FEFF, 0x00000004⟩,
  ⟨"LOG2", 0xFF00FEFF, 0x00000005⟩,
  ⟨"LOG10", 0xFF00FEFF, 0x00000006⟩,
  ⟨"LOG256", 0xFF00FEFF, 0x00000007⟩,
  ⟨"WADLN", 0xFF00FFFF, 0x00000008⟩,
  ⟨"WADEXP", 0xFF00FFFF, 0x00000009⟩,
  ⟨"CBRT", 0xFF00FEFF, 0x0000000A⟩,
  ⟨"WADCBRT", 0xFF00FFFF, 0x0000000B⟩]

/-- The mnemonic of an instruction (R84 Table 2). -/
def Instr.mnemonic : Instr → String
  | .avgu .. => "AVGU"
  | .avgs .. => "AVGS"
  | .ceildiv .. => "CEILDIV"
  | .isneg .. => "ISNEG"
  | .muldiv .. => "MULDIV"
  | .log2 .. => "LOG2"
  | .log10 .. => "LOG10"
  | .log256 .. => "LOG256"
  | .wadln .. => "WADLN"
  | .wadexp .. => "WADEXP"
  | .cbrt .. => "CBRT"
  | .wadcbrt .. => "WADCBRT"

/-- The units that perform an instruction (R3 Table 1). No meaning depends on it. -/
def Instr.units : Instr → List HwUnit
  | .avgu .. => [.averageNoOverflowAdder]
  | .avgs .. => [.averageNoOverflowAdder]
  | .ceildiv .. => [.divider]
  | .isneg .. => [.averageNoOverflowAdder]
  | .muldiv .. => [.wideMultiplier, .divider]
  | .log2 .. => [.log2BarrelShifter]
  | .log10 .. => [.integerLog10RadixDecoder]
  | .log256 .. => [.log2BarrelShifter]
  | .wadln .. => [.log2BarrelShifter, .fixedPointLnCordicApprox]
  | .wadexp .. => [.fixedPointExpRationalPoly]
  | .cbrt .. => [.log2BarrelShifter, .cbrtNewtonRaphsonPipeline]
  | .wadcbrt .. => [.log2BarrelShifter, .cbrtNewtonRaphsonPipeline]

end Sys2Proof
end

