-- ==== Sys2Proof/Config.lean ====
section
/-! DEFINITION. What one implementation fixes (00_scope.md R11) and the free values: the points that
93_implementation_defined.md Part 1 leaves open. No constant here but the coefficient records has a body
that a proof could see. -/

namespace Sys2Proof.Config

/-- DEPTH − 1: an open parameter (R11, 93 U4; log entry 3). -/
opaque depthLessOne : Nat

/-- DEPTH ≥ 1, the most commands accepted and not yet answered (R11, R44). -/
def depth : Nat := depthLessOne + 1

/-- LAT_MAX − 1: an open parameter (R11, 93 U5; log entry 4). -/
opaque latMaxLessOne : Nat

/-- LAT_MAX ≥ 1, the progress bound in cycles (R11, R262). -/
def latMax : Nat := latMaxLessOne + 1

/-- Free value (93 U3; log entry 5): the draw, at one edge and with PEND as that edge leaves it, from which the delay of
the new head's response comes. The head's opcode and operands are in PEND, so latency may differ by opcode and depend on
operand values (R261). -/
opaque rspDraw : Nat → List Command → Nat

/-- Free value (93 U2; log entry 6): the draw, at one edge and with PEND as that edge leaves it, from which the next pause
of `cmd_ready` comes. -/
opaque cmdDraw : Nat → List Command → Nat

/-- Free values (93 U1; log entry 7): what the response wires carry in a cycle with `rsp_valid = 0` (R48), by the
cycle's number and its PEND. -/
opaque idleStatus : Nat → List Command → BitVec 4
opaque idleTag : Nat → List Command → BitVec 8
opaque idleResult : Nat → List Command → Word
opaque idleAux : Nat → List Command → Word

/-- The cycles a new head waits before its response is first presented: any number below LAT_MAX
(R46, R262 item 1). -/
def rspDelay (cycle : Nat) (pend : List Command) : Nat := rspDraw cycle pend % latMax

/-- The cycles with room before `cmd_ready` is next 1: any number below LAT_MAX (R44, R262 item 2). -/
def cmdPause (cycle : Nat) (pend : List Command) : Nat := cmdDraw cycle pend % latMax

/-- The coefficient set `LN_CONST` of WADLN (R162 Table 1). Its default, which the core is built with, is
`Machine.lnConst`. -/
structure LnConst where
  p0 : Int
  p1 : Int
  p2 : Int
  p3 : Int
  p4 : Int
  p5 : Int
  p6 : Int
  q0 : Int
  q1 : Int
  q2 : Int
  q3 : Int
  q4 : Int
  q5 : Int
  q6 : Int
  s1 : Int
  s2 : Int
  s3 : Int
deriving DecidableEq, Repr

/-- The coefficient set `EXP_CONST` of WADEXP (R182 Table 1), with the two thresholds. Its default, which the
core is built with, is `Machine.expConst`. -/
structure ExpConst where
  lo : Int
  hi : Int
  ln2 : Int
  e0 : Int
  e1 : Int
  e2 : Int
  e3 : Int
  e4 : Int
  f0 : Int
  f1 : Int
  f2 : Int
  f3 : Int
  f4 : Int
  f5 : Int
  sexp : Int
deriving DecidableEq, Repr

end Sys2Proof.Config
end

