-- ==== Sys2Proof/Machine/State.lean ====
section
/-! DEFINITION. The state of the core and its two ports (10_state.md), as plain data. -/

namespace Sys2Proof.Machine

/-- The outcome kinds a response reports (R220 Table 1). Codes 5 to 15 are reserved and never produced, so they have
no constructor (93 U7). -/
inductive Status where
  /-- The operation completed. -/
  | ok
  /-- CEILDIV with B = 0, or MULDIV with C = 0. -/
  | divByZero
  /-- A MULDIV quotient past MAXW, or WADEXP at or above its upper threshold. -/
  | overflow
  /-- WADLN of a negative operand. -/
  | undefined
  /-- The command's encoding is reserved (R88). -/
  | illegal
deriving DecidableEq, Repr

/-- A response: the tuple `(STATUS, TAG, RESULT, AUX)` (R41, R86). -/
structure Response where
  status : Status
  tag : BitVec 8
  result : Word
  aux : Word
deriving DecidableEq, Repr

/-- The core's input wires in one cycle, driven by the host and sampled at the edge that ends the cycle
(R40 Table 1, R42). -/
structure HostPins where
  rst : Bool
  cmdValid : Bool
  cmd : Packet
  rspReady : Bool
deriving DecidableEq, Repr

/-- All input wires at 0. -/
def HostPins.low : HostPins := ⟨false, false, ⟨0, 0, 0, 0⟩, false⟩

/-- The machine in one cycle, between two rising edges. -/
structure State where
  /-- PEND: the commands accepted and not yet answered, oldest first (R43). -/
  pend : List Command
  /-- The output `cmd_ready` in this cycle (R44). -/
  cmdReady : Bool
  /-- The response port in this cycle: `some r` when `rsp_valid = 1` with the response signals carrying `r`, `none`
  when `rsp_valid = 0`, where the signals are unspecified (R46, R47, R48). -/
  rsp : Option Response
  /-- The input wires in this cycle. -/
  pins : HostPins
  /-- The model's own: what the host drives in the cycles that follow; once it is empty the wires hold (log entry 2). -/
  script : List HostPins
  /-- The model's own: cycles until the head's response is first presented (R262 item 1; log entry 5). -/
  rspWait : Nat
  /-- The model's own: cycles with room until `cmd_ready` is next 1 (R262 item 2; log entry 6). -/
  cmdWait : Nat
  /-- The model's own: the number of edges so far, an argument of the free values (log entry 8). -/
  cycle : Nat
deriving DecidableEq, Repr

/-- Why a step stops. -/
inductive Fault where
  /-- An internal division of WADLN, WADEXP, WADCBRT or CBRT met a zero divisor, for which no rule defines a result
  (R16, 93 U12 "fault"). R166, R186 and R203 say that no input reaches it. Safe: the machine stops. -/
  | zeroDivisor
deriving DecidableEq, Repr

/-- Why a step refuses. -/
inductive Refusal where
  /-- An instruction without a meaning, raised by `exec` alone; no arm raises it. Safe. -/
  | notModelled (mnemonic : String)
deriving DecidableEq, Repr

/-- The core in the cycle after a reset edge, with `rst` low again (R54 Table 2, R250): PEND empty, `cmd_ready` and
`rsp_valid` 0. The inputs and the model's own fields have no reset value in the spec: DESIGN CHOICE 0 and empty
(log entries 2 and 8). -/
def State.reset : State where
  pend := []
  cmdReady := false
  rsp := none
  pins := HostPins.low
  script := []
  rspWait := 0
  cmdWait := 0
  cycle := 0

end Sys2Proof.Machine
end

