-- ==== Sys2Proof/Machine/Operands.lean ====
section
/-! DEFINITION. Operand forms and the arithmetic notation of 00_scope.md R13 to R18, R20. -/

namespace Sys2Proof.Machine

/-- A pattern read as an SWord (R13). -/
def s256 (w : Word) : Int := w.toInt

/-- The pattern that carries an integer: its value mod 2^256 (R13). -/
def u256 (z : Int) : Word := BitVec.ofInt 256 z

/-- `bool_to_word` (R20). -/
def boolToWord (b : Bool) : Word := if b then 1 else 0

/-- `a +w b` (R15). -/
def addW (a b : Word) : Word := u256 (a.toNat + b.toNat)

/-- `a -w b` (R15). -/
def subW (a b : Word) : Word := u256 ((a.toNat : Int) - b.toNat)

/-- `a *w b` (R15). -/
def mulW (a b : Word) : Word := u256 (a.toNat * b.toNat)

/-- `a +s b` (R15). -/
def addS (a b : Int) : Int := s256 (u256 (a + b))

/-- `a -s b` (R15). -/
def subS (a b : Int) : Int := s256 (u256 (a - b))

/-- `a *s b` (R15). -/
def mulS (a b : Int) : Int := s256 (u256 (a * b))

/-- `udiv(a, b)` on unbounded naturals; `none` for the zero divisor that no rule gives a result (R16, 93 U12). -/
def udiv (a b : Nat) : Option Nat := if b = 0 then none else some (a / b)

/-- `sdiv(a, b)`, truncated toward zero; `none` for a zero divisor (R16, 93 U12; log entries 9 and 12). -/
def sdiv (a b : Int) : Option Int := if b = 0 then none else some (s256 (u256 (a.tdiv b)))

/-- `shl(w, n)`, 0 when n ≥ 256 (R17). -/
def shl (w : Word) (n : Nat) : Word := w <<< n

/-- `shr(w, n)`, logical, 0 when n ≥ 256 (R17). -/
def shr (w : Word) (n : Nat) : Word := w >>> n

/-- `sar(s, n) = floor(s / 2^n)`, arithmetic (R17); Lean's `/` on integers is the floor for a positive divisor. -/
def sar (s : Int) (n : Nat) : Int := s / (2 ^ n : Nat)

end Sys2Proof.Machine
end

