-- ==== Sys2Proof/Machine/Flags.lean ====
section
/-! DEFINITION. The core has no flags (10_state.md R51): the outcome of an operation is the STATUS of its own response.
This file holds what stands in their place: status codes, operation outcomes and the response an outcome gives. -/

namespace Sys2Proof.Machine

/-- The 4-bit code on `rsp_status` (R220 Table 1). -/
def Status.code : Status → BitVec 4
  | .ok => 0
  | .divByZero => 1
  | .overflow => 2
  | .undefined => 3
  | .illegal => 4

/-- The status a code stands for; none for the reserved codes 5 to 15 (R220, 93 U7). -/
def Status.ofCode (c : BitVec 4) : Option Status :=
  match c.toNat with
  | 0 => some .ok
  | 1 => some .divByZero
  | 2 => some .overflow
  | 3 => some .undefined
  | 4 => some .illegal
  | _ => none

/-- The outcome of an operation: `return` with a result and an AUX, or `raise E` (R19, R89). -/
inductive Result where
  | ok (result aux : Word)
  | fail (e : Status)
deriving DecidableEq, Repr

/-- The response that carries an outcome (R19, R86, R89): on a failure RESULT = 0 and AUX = 0. -/
def Result.toResponse (tag : BitVec 8) : Result → Response
  | .ok result aux => ⟨.ok, tag, result, aux⟩
  | .fail e => ⟨e, tag, 0, 0⟩

/-- The response to an ILLEGAL command, which carries the command's TAG all the same (R86, R88). -/
def illegalResponse (tag : BitVec 8) : Response := (Result.fail .illegal).toResponse tag

end Sys2Proof.Machine
end

