-- ==== Sys2Proof/Machine/Ops.lean ====
section
/-! DEFINITION. The operations of the machine: presenting a response, the transfers and the update at a rising edge,
and the wires of the two ports. The core takes no exception and returns from none (60_exceptions.md R226, R227): a
failure is presented like every other outcome. -/

namespace Sys2Proof.Machine

/-- What one step answers. -/
abbrev StepOutcome := Host.Outcome State Fault Refusal

/-! ## Presenting a response -/

/-- The cycle with `rsp_valid = 1` and the response signals carrying `r` (R47). -/
def State.present (r : Response) (s : State) : State := { s with rsp := some r }

/-- An operation ends: its outcome is presented; an internal zero divisor stops the machine (R19, R89, 93 U12). -/
def respond (tag : BitVec 8) (o : Option Result) (s : State) : StepOutcome :=
  match o with
  | some r => .next (s.present (r.toResponse tag))
  | none => .fault .zeroDivisor

/-! ## A rising edge -/

/-- A command transfers at the coming edge (R42; not at a reset edge, R250). -/
def State.cmdTransfers (s : State) : Bool := !s.pins.rst && s.pins.cmdValid && s.cmdReady

/-- A response transfers at the coming edge (R42; not at a reset edge, R250). -/
def State.rspTransfers (s : State) : Bool := !s.pins.rst && s.pins.rspReady && s.rsp.isSome

/-- PEND after the coming edge (R45, R250): first the head leaves, then the captured command joins the end. -/
def State.pendAfterEdge (s : State) : List Command :=
  if s.pins.rst then []
  else
    let kept := if s.rspTransfers then s.pend.tail else s.pend
    if s.cmdTransfers then kept ++ [s.pins.cmd.toCommand] else kept

/-- A command becomes the head of PEND at the coming edge: at its own acceptance, or where its predecessor's response
transfers (R262 item 1). -/
def State.headArrives (s : State) : Bool :=
  (s.rspTransfers || s.pend.isEmpty) && !s.pendAfterEdge.isEmpty

/-- PEND has room at the start of the cycle that the coming edge begins (R44). -/
def State.roomAfterEdge (s : State) : Bool := decide (s.pendAfterEdge.length < Config.depth)

/-- `cmd_ready` in the cycle that the coming edge begins: 0 after a reset edge (R250); else 1 only with room (R44), once
the drawn pause has passed (R262 item 2). -/
def State.readyAfterEdge (s : State) : Bool := !s.pins.rst && s.roomAfterEdge && s.cmdWait == 0

/-- The pause that is left after the coming edge: drawn anew at a reset edge and whenever `cmd_ready` is 1, counted down
in a cycle with room, held in a cycle without. -/
def State.pauseAfterEdge (s : State) : Nat :=
  if s.pins.rst || s.readyAfterEdge then Config.cmdPause s.cycle s.pendAfterEdge
  else if s.roomAfterEdge then s.cmdWait - 1
  else s.cmdWait

/-- The cycle that the coming edge begins, before a response is newly presented in it (R42, R45, R46, R250). A response
that did not transfer stays as it is. -/
def State.afterEdge (s : State) : State where
  pend := s.pendAfterEdge
  cmdReady := s.readyAfterEdge
  rsp := if s.pins.rst || s.rspTransfers then none else s.rsp
  pins := s.script.headD s.pins
  script := s.script.tail
  rspWait := if s.headArrives then Config.rspDelay s.cycle s.pendAfterEdge else if s.pins.rst then 0 else s.rspWait
  cmdWait := s.pauseAfterEdge
  cycle := s.cycle + 1

/-- The head of PEND when its response is to be presented in this cycle: no response is held and the drawn delay has
passed (R46, R47). This is the machine's fetch. -/
def State.headToAnswer (s : State) : Option Command :=
  match s.rsp, s.pend, s.rspWait with
  | none, k :: _, 0 => some k
  | _, _, _ => none

/-- A cycle in which no response is newly presented: the head's delay, if it waits, is one cycle shorter. -/
def State.waitCycle (s : State) : State :=
  if s.rsp.isNone && !s.pend.isEmpty then { s with rspWait := s.rspWait - 1 } else s

/-! ## The wires -/

/-- The core's output wires in one cycle (R40 Table 1). -/
structure PortOut where
  cmdReady : Bool
  rspValid : Bool
  rspStatus : BitVec 4
  rspTag : BitVec 8
  rspResult : Word
  rspAux : Word
deriving DecidableEq, Repr

/-- The output wires: while `rsp_valid = 0` the four response signals carry free values (R47, R48, 93 U1). -/
def State.outputs (s : State) : PortOut :=
  match s.rsp with
  | some r => ⟨s.cmdReady, true, r.status.code, r.tag, r.result, r.aux⟩
  | none => ⟨s.cmdReady, false, Config.idleStatus s.cycle s.pend, Config.idleTag s.cycle s.pend,
      Config.idleResult s.cycle s.pend, Config.idleAux s.cycle s.pend⟩

/-- Place a packet where the machine takes its next command from: at the head of PEND, with no response held, its delay
passed, and no reset at the coming edge. `cmd_ready` is 0 in this cycle, so that no command joins PEND unchecked
(R44; log entry 16). -/
def State.placeHead (s : State) (p : Packet) : State :=
  { s with
    pend := p.toCommand :: s.pend.tail
    rsp := none
    rspWait := 0
    cmdReady := false
    pins := { s.pins with rst := false } }

end Sys2Proof.Machine
end

