-- ==== Sys2Proof/Machine/Logs.lean ====
section
/-! DEFINITION. LOG2, LOG10 and LOG256 (42_logarithms.md). -/

namespace Sys2Proof.Machine

/-- One probe of a binary search on shifts: if `shr(v, bits) ≠ 0` the value shrinks and the result grows (R140, R146). -/
def shiftProbe (vr : Word × Nat) (probe : Nat × Nat) : Word × Nat :=
  if shr vr.1 probe.1 ≠ 0 then (shr vr.1 probe.1, vr.2 + probe.2) else vr

/-- `log2Floor(x)`: the halving probes of R140. -/
def log2Floor (x : Word) : Nat :=
  ([(128, 128), (64, 64), (32, 32), (16, 16), (8, 8), (4, 4), (2, 2), (1, 1)].foldl shiftProbe (x, 0)).2

/-- `log2Probe(x, up)` (R140). -/
def log2Probe (x : Word) (up : Bool) : Nat :=
  if up && decide ((shl 1 (log2Floor x)).toNat < x.toNat) then log2Floor x + 1 else log2Floor x

/-- `log2Ceil(x)` (R140). -/
def log2Ceil (x : Word) : Nat := log2Probe x true

/-- One decimal probe (R143). -/
def decimalProbe (vr : Nat × Nat) (e : Nat) : Nat × Nat :=
  if vr.1 ≥ 10 ^ e then (vr.1 / 10 ^ e, vr.2 + e) else vr

/-- The decimal search of R143, before rounding (log entry 24). -/
def log10Floor (x : Word) : Nat := ([64, 32, 16, 8, 4, 2, 1].foldl decimalProbe (x.toNat, 0)).2

/-- `log10Probe(x, up)` (R143). -/
def log10Probe (x : Word) (up : Bool) : Nat :=
  if up && decide (10 ^ log10Floor x < x.toNat) then log10Floor x + 1 else log10Floor x

/-- The byte-width search of R146, before rounding. -/
def log256Floor (x : Word) : Nat :=
  ([(128, 16), (64, 8), (32, 4), (16, 2), (8, 1)].foldl shiftProbe (x, 0)).2

/-- `log256Probe(x, up)` (R146). -/
def log256Probe (x : Word) (up : Bool) : Nat :=
  if up && decide ((shl 1 (8 * log256Floor x)).toNat < x.toNat) then log256Floor x + 1 else log256Floor x

/-- LOG2 (R141). -/
def execLog2 (tag : BitVec 8) (up : Bool) (x : Word) (s : State) : StepOutcome :=
  respond tag (some (.ok (u256 (log2Probe x up)) 0)) s

/-- LOG10 (R144). -/
def execLog10 (tag : BitVec 8) (up : Bool) (x : Word) (s : State) : StepOutcome :=
  respond tag (some (.ok (u256 (log10Probe x up)) 0)) s

/-- LOG256 (R147). -/
def execLog256 (tag : BitVec 8) (up : Bool) (x : Word) (s : State) : StepOutcome :=
  respond tag (some (.ok (u256 (log256Probe x up)) 0)) s

end Sys2Proof.Machine
end

