-- ==== Sys2Proof/Machine/CubeRoots.lean ====
section
/-! DEFINITION. WADCBRT and CBRT (45_cube_roots.md). The products and sums are those of unbounded naturals (R203). -/

namespace Sys2Proof.Machine

/-- `T2 = udiv(MAXW, 10^36)` (R200). -/
def cbrtT2 : Nat := maxW / 10 ^ 36

/-- `T1 = T2 · 10^18` (R200). -/
def cbrtT1 : Nat := cbrtT2 * 10 ^ 18

/-- The scaled operand and the factor that rescales the root: the three branches of R202, in the order of R200
(inclusive comparisons, log entry 13). -/
def cbrtScale (x : Nat) : Nat × Nat :=
  if cbrtT1 ≤ x then (x, 10 ^ 12)
  else if cbrtT2 ≤ x then (x * 10 ^ 18, 10 ^ 6)
  else (x * 10 ^ 36, 1)

/-- The seed for a value with `log2Floor` l: `udiv(2^udiv(l, 3) · 1260^(l mod 3), 1000^(l mod 3))` (R201). -/
def cbrtSeed (l : Nat) : Nat := 2 ^ (l / 3) * 1260 ^ (l % 3) / 1000 ^ (l % 3)

/-- One refinement: `udiv(2·y + udiv(value, y·y), 3)` (R202). -/
def newtonStep (value y : Nat) : Option Nat :=
  match udiv value (y * y) with
  | some q => some ((2 * y + q) / 3)
  | none => none

/-- `n` refinements. -/
def newtonSteps (value : Nat) : Nat → Nat → Option Nat
  | 0, y => some y
  | n + 1, y =>
    match newtonStep value y with
    | some y' => newtonSteps value n y'
    | none => none

/-- The refinement count NR_ITER, fixed (R11 Table 2, R202). -/
def cbrtIterations : Nat := 7

/-- `WADCBRT(x)` as a natural number (R202). -/
def wadCbrt (x : Word) : Option Nat :=
  if x = 0 then some 0
  else
    let value := (cbrtScale x.toNat).1
    match newtonSteps value cbrtIterations (cbrtSeed (log2Floor (u256 value))) with
    | some y => some (y * (cbrtScale x.toNat).2)
    | none => none

/-- `CBRT(x, up)` (R206): the cube is the wrapping product `y *w y *w y` (R205, log entry 13). -/
def cbrt (x : Word) (up : Bool) : Option Nat :=
  match wadCbrt x with
  | some w =>
    let y : Nat := w / 10 ^ 12
    some (if up && mulW (mulW (u256 y) (u256 y)) (u256 y) != x then y + 1 else y)
  | none => none

/-- A root as an outcome. -/
def rootResult : Option Nat → Option Result
  | some n => some (.ok (u256 n) 0)
  | none => none

/-- CBRT (R206). -/
def execCbrt (tag : BitVec 8) (up : Bool) (x : Word) (s : State) : StepOutcome :=
  respond tag (rootResult (cbrt x up)) s

/-- WADCBRT (R202). -/
def execWadcbrt (tag : BitVec 8) (x : Word) (s : State) : StepOutcome :=
  respond tag (rootResult (wadCbrt x)) s

end Sys2Proof.Machine
end

