-- ==== Sys2Proof/Machine/Elementary.lean ====
section
/-! DEFINITION. AVGU, AVGS, CEILDIV and ISNEG (40_elementary.md). -/

namespace Sys2Proof.Machine

/-- `AVGU(x, y)` (R100): `(x & y) + shr(x ^ y, 1)`. -/
def avgu (x y : Word) : Result := .ok (addW (x &&& y) (shr (x ^^^ y) 1)) 0

/-- `AVGS(x, y)` (R102): `sar(x, 1) + sar(y, 1) + (u256(x) & u256(y) & 1)`. -/
def avgs (x y : Int) : Result :=
  .ok (u256 (sar x 1 + sar y 1 + (u256 x &&& u256 y &&& 1).toNat)) 0

/-- `CEILDIV(x, y)` (R104): the zero divisor wins over `x = 0` (R224). -/
def ceildiv (x y : Nat) : Result :=
  if y = 0 then .fail .divByZero
  else if x = 0 then .ok 0 0
  else .ok (u256 ((x - 1) / y + 1 : Nat)) 0

/-- `ISNEG(x)` (R106). -/
def isneg (x : Int) : Result := .ok (boolToWord (decide (x < 0))) 0

/-- AVGU (R100). -/
def execAvgu (tag : BitVec 8) (x y : Word) (s : State) : StepOutcome := respond tag (some (avgu x y)) s

/-- AVGS (R102). -/
def execAvgs (tag : BitVec 8) (x y : Word) (s : State) : StepOutcome :=
  respond tag (some (avgs (s256 x) (s256 y))) s

/-- CEILDIV (R104). -/
def execCeildiv (tag : BitVec 8) (x y : Word) (s : State) : StepOutcome :=
  respond tag (some (ceildiv x.toNat y.toNat)) s

/-- ISNEG (R106). -/
def execIsneg (tag : BitVec 8) (x : Word) (s : State) : StepOutcome := respond tag (some (isneg (s256 x))) s

end Sys2Proof.Machine
end

