-- ==== Sys2Proof/Machine/MulDiv.lean ====
section
/-! DEFINITION. The wide multiplier, the divider and MULDIV (41_muldiv.md), and the two informative constructions of
R121 and R123, which the machine does not use (93 U19; log entry 21). -/

namespace Sys2Proof.Machine

/-- A WidePair `(high, low)`, the value `high · 2^256 + low` (R10). It is internal to MULDIV. -/
structure WidePair where
  high : Word
  low : Word
deriving DecidableEq, Repr

/-- The 512-bit value of a pair (R10). -/
def WidePair.value (p : WidePair) : Nat := p.high.toNat * 2 ^ 256 + p.low.toNat

/-- `MUL512(x, y)` (R120). -/
def mul512 (x y : Word) : WidePair :=
  ⟨u256 (x.toNat * y.toNat / 2 ^ 256 : Nat), u256 (x.toNat * y.toNat % 2 ^ 256 : Nat)⟩

/-- `DIV512(high, low, d)`, quotient and remainder (R122). R124 asks it only with `high < d`. -/
def div512 (p : WidePair) (d : Word) : Word × Word :=
  (u256 (p.value / d.toNat : Nat), u256 (p.value % d.toNat : Nat))

/-- `MULDIV(x, y, d, up)` (R124), its failures in the order of R224. -/
def muldiv (x y d : Word) (up : Bool) : Result :=
  if d = 0 then .fail .divByZero
  else
    let p := mul512 x y
    if p.high = 0 then
      let q := u256 (p.low.toNat / d.toNat : Nat)
      let r := u256 (p.low.toNat % d.toNat : Nat)
      .ok (if up && r != 0 then addW q 1 else q) r
    else if d.toNat ≤ p.high.toNat then .fail .overflow
    else
      let q := (div512 p d).1
      let r := (div512 p d).2
      if up && r != 0 then
        if q.toNat = maxW then .fail .overflow else .ok (addW q 1) r
      else .ok q r

/-- MULDIV (R124). -/
def execMuldiv (tag : BitVec 8) (up : Bool) (x y d : Word) (s : State) : StepOutcome :=
  respond tag (some (muldiv x y d up)) s

/-! ## Informative constructions -/

/-- The Chinese-remainder construction of the product, with the second modulus `2^256 − 1` (R121). -/
def mul512Crt (x y : Word) : WidePair :=
  let mm := u256 (x.toNat * y.toNat % (2 ^ 256 - 1) : Nat)
  let low := mulW x y
  ⟨if mm.toNat < low.toNat then subW (subW mm low) 1 else subW mm low, low⟩

/-- One doubling step of the modular inverse: `inv *w (2 -w d *w inv)` (R123). -/
def invStep (d inv : Word) : Word := mulW inv (subW 2 (mulW d inv))

/-- The inverse of an odd word mod 2^256: the seed `(3·d) ^ 2`, then six doublings (R123). -/
def inverseOdd (d : Word) : Word :=
  invStep d (invStep d (invStep d (invStep d (invStep d (invStep d (mulW 3 d ^^^ 2))))))

/-- The division of R123: subtract the remainder, divide by the largest power of two dividing `d`, fold the high word
into the low one, and multiply by the inverse of the odd part. -/
def div512Inverse (p : WidePair) (d : Word) : Word × Word :=
  let r := p.value % d.toNat
  let v := p.value - r
  let t := (d &&& subW 0 d).toNat
  let low := u256 (v % 2 ^ 256 / t + v / 2 ^ 256 * (2 ^ 256 / t) : Nat)
  (mulW low (inverseOdd (u256 (d.toNat / t : Nat))), u256 r)

end Sys2Proof.Machine
end

