-- ==== Sys2Proof/Machine/WadLn.lean ====
section
/-! DEFINITION. WADLN (43_wad_ln.md). The functions take the coefficient set as an argument; the core is built with
`lnConst`. -/

namespace Sys2Proof.Machine

open Sys2Proof.Config (LnConst)

/-- The coefficients of R162 Table 1 (log entry 10). -/
def lnConst : LnConst where
  p0 := 3273285459638523848632254066296
  p1 := 24828157081833163892658089445524
  p2 := 43456485725739037958740375743393
  p3 := -11111509109440967052023855526967
  p4 := -45023709667254063763336534515857
  p5 := -14706773417378608786704636184526
  p6 := 795164235651350426258249787498
  q0 := 5573035233440673466300451813936
  q1 := 71694874799317883764090561454958
  q2 := 283447036172924575727196451306956
  q3 := 401686690394027663651624208769553
  q4 := 204048457590392012362485061816622
  q5 := 31853899698501571402653359427138
  q6 := 909429971244387300277376558375
  s1 := 1677202110996718588342820967067443963516166
  s2 := 16597577552685614221487285958193947469193820559219878177908093499208371
  s3 := 600920179829731861736702779321621459595472258049074101567377883020018308

/-- A Horner step in 2^96 fixed point: `sar(acc *s v, 96) +s c` (R163). -/
def hornerStep (v acc c : Int) : Int := addS (sar (mulS acc v) 96) c

/-- The binary exponent of the operand: `log2Floor(u256(x)) − 96` (R161). -/
def lnExponent (x : Int) : Int := (log2Floor (u256 x) : Int) - 96

/-- Range reduction: `s256(shr(shl(u256(x), 159 − k), 159))` (R161; the amount is never negative, log entry 14). -/
def lnNormalize (x : Int) (k : Int) : Int := s256 (shr (shl (u256 x) (159 - k).toNat) 159)

/-- The numerator, left in the 2^192 base (R164). -/
def lnNumerator (c : LnConst) (v : Int) : Int :=
  subS (mulS ([c.p1, c.p2, c.p3, c.p4, c.p5].foldl (hornerStep v) (addS v c.p0)) v) (c.p6 * 2 ^ 96)

/-- The denominator, in the 2^96 base (R164). -/
def lnDenominator (c : LnConst) (v : Int) : Int :=
  [c.q1, c.q2, c.q3, c.q4, c.q5, c.q6].foldl (hornerStep v) (addS v c.q0)

/-- The last steps: scale, add k's share of ln 2, convert the base, shift (R164). -/
def lnRescale (c : LnConst) (r : Int) (k : Int) : Int :=
  sar (addS (addS (mulS r c.s1) (mulS c.s2 k)) c.s3) 174

/-- `WADLN(x)` (R160, R164). -/
def wadLn (c : LnConst) (x : Int) : Option Result :=
  if x < 0 then some (.fail .undefined)
  else if x = 0 then some (.ok 0 0)
  else
    let k := lnExponent x
    let v := lnNormalize x k
    match sdiv (lnNumerator c v) (lnDenominator c v) with
    | some r => some (.ok (u256 (lnRescale c r k)) 0)
    | none => none

/-- WADLN (R164). -/
def execWadln (tag : BitVec 8) (x : Word) (s : State) : StepOutcome := respond tag (wadLn lnConst (s256 x)) s

end Sys2Proof.Machine
end

