-- ==== Sys2Proof/Machine/WadExp.lean ====
section
/-! DEFINITION. WADEXP (44_wad_exp.md). The functions take the coefficient set as an argument; the core is built with
`expConst`. -/

namespace Sys2Proof.Machine

open Sys2Proof.Config (ExpConst)

/-- The thresholds and coefficients of R182 Table 1 (log entry 11). -/
def expConst : ExpConst where
  lo := -42139678854452767551
  hi := 135305999368893231589
  ln2 := 54916777467707473351141471128
  e0 := 1346386616545796478920950773328
  e1 := 57155421227552351082224309758442
  e2 := 94201549194550492254356042504812
  e3 := 28719021644029726153956944680412240
  e4 := 4385272521454847904659076985693276
  f0 := 2855989394907223263936484059900
  f1 := 50020603652535783019961831881945
  f2 := 533845033583426703283633433725380
  f3 := 3604857256930695427073651918091429
  f4 := 14423608567350463180887372962807573
  f5 := 26449188498355588339934803723976023
  sexp := 3822833074963236453042738258902158003155416615667

/-- `5^18` (R181). -/
def fivePow18 : Int := 3814697265625

/-- The operand in the 2^96 base: `sdiv(s256(shl(u256(x), 78)), 5^18)` (R181, R184). -/
def expBase (x : Int) : Option Int := sdiv (s256 (shl (u256 x) 78)) fivePow18

/-- The binary exponent: `sar(sdiv(s256(shl(u256(v), 96)), LN2_96) +s 2^95, 96)` (R181, R184). -/
def expExponent (c : ExpConst) (v : Int) : Option Int :=
  match sdiv (s256 (shl (u256 v) 96)) c.ln2 with
  | some t => some (sar (addS t (2 ^ 95)) 96)
  | none => none

/-- The reduced argument: `v -s (k *s LN2_96)` (R184). -/
def expReduce (c : ExpConst) (v k : Int) : Int := subS v (mulS k c.ln2)

/-- `y <- sar((v +s E0) *s v, 96) +s E1` (R184). -/
def expInner (c : ExpConst) (v : Int) : Int := addS (sar (mulS (addS v c.e0) v) 96) c.e1

/-- The numerator, left in the 2^192 base (R184). -/
def expNumerator (c : ExpConst) (v : Int) : Int :=
  let y := expInner c v
  let p := subS (addS y v) c.e2
  let p := addS (sar (mulS p y) 96) c.e3
  addS (mulS p v) (c.e4 * 2 ^ 96)

/-- The denominator, in the 2^96 base (R184). -/
def expDenominator (c : ExpConst) (v : Int) : Int :=
  let q := addS (sar (mulS (subS v c.f0) v) 96) c.f1
  let q := subS (sar (mulS q v) 96) c.f2
  let q := addS (sar (mulS q v) 96) c.f3
  let q := subS (sar (mulS q v) 96) c.f4
  addS (sar (mulS q v) 96) c.f5

/-- The last step: `s256(shr(u256(r) *w SEXP, 195 − k))` (R183, R184; at `k = −61` the amount is 256 and the value 0;
it is never negative, log entry 14). -/
def expRescale (c : ExpConst) (r : Int) (k : Int) : Int :=
  s256 (shr (mulW (u256 r) (u256 c.sexp)) (195 - k).toNat)

/-- `WADEXP(x)` (R180, R184). -/
def wadExp (c : ExpConst) (x : Int) : Option Result :=
  if x ≤ c.lo then some (.ok 0 0)
  else if c.hi ≤ x then some (.fail .overflow)
  else
    match expBase x with
    | none => none
    | some v0 =>
      match expExponent c v0 with
      | none => none
      | some k =>
        let v := expReduce c v0 k
        match sdiv (expNumerator c v) (expDenominator c v) with
        | none => none
        | some r => some (.ok (u256 (expRescale c r k)) 0)

/-- WADEXP (R184). -/
def execWadexp (tag : BitVec 8) (x : Word) (s : State) : StepOutcome := respond tag (wadExp expConst (s256 x)) s

end Sys2Proof.Machine
end

