-- ==== Sys2Proof/Machine/Dispatch.lean ====
section
/-! DEFINITION. One arm per instruction (30_encoding.md R89). -/

namespace Sys2Proof.Machine

def exec (i : Instr) (s : State) : Host.Outcome State Fault Refusal :=
  match i with
  | .avgu tag x y => Sys2Proof.Machine.execAvgu tag x y s
  | .avgs tag x y => Sys2Proof.Machine.execAvgs tag x y s
  | .ceildiv tag x y => Sys2Proof.Machine.execCeildiv tag x y s
  | .isneg tag x => Sys2Proof.Machine.execIsneg tag x s
  | .muldiv tag up x y d => Sys2Proof.Machine.execMuldiv tag up x y d s
  | .log2 tag up x => Sys2Proof.Machine.execLog2 tag up x s
  | .log10 tag up x => Sys2Proof.Machine.execLog10 tag up x s
  | .log256 tag up x => Sys2Proof.Machine.execLog256 tag up x s
  | .wadln tag x => Sys2Proof.Machine.execWadln tag x s
  | .wadexp tag x => Sys2Proof.Machine.execWadexp tag x s
  | .cbrt tag up x => Sys2Proof.Machine.execCbrt tag up x s
  | .wadcbrt tag x => Sys2Proof.Machine.execWadcbrt tag x s

end Sys2Proof.Machine
end

