-- ==== Sys2Proof/Machine/Step.lean ====
section
/-! DEFINITION. One step: a rising edge of `clk` and the cycle it begins (10_state.md R40 to R47; log entry 1). -/

namespace Sys2Proof.Machine

/-- The head's response is presented: a legal command executes, an illegal one is answered ILLEGAL with its TAG
(R47, R88, R89). -/
def answer (k : Command) (s : State) : Host.Outcome State Fault Refusal :=
  match decodeCommand k with
  | .ok i => exec i s
  | .error _ => respond k.tag (some (.fail .illegal)) s

/-- One rising edge, then the cycle it begins. -/
def step (s : State) : Host.Outcome State Fault Refusal :=
  match s.afterEdge.headToAnswer with
  | some k => answer k s.afterEdge
  | none => .next s.afterEdge.waitCycle

/-- `s` with an opcode-table row's packet placed where the next step takes its command from (log entry 16). -/
def State.withFetchWord (s : State) (nbits w : Nat) : State := s.placeHead (packetOfTableWord nbits w)

end Sys2Proof.Machine
end

