-- ==== Sys2Proof/Machine/Assembler.lean ====
section
/-! DEFINITION. The assembler syntax and the pseudo-instruction DIVU (30_encoding.md R90, R91). The assembler is the
host's; the machine never sees a line, only the packet it is assembled to. -/

namespace Sys2Proof.Machine

/-- The mnemonics of R84 Table 2 and the pseudo-instruction DIVU (R91). -/
inductive AsmOp where
  | avgu | avgs | ceildiv | isneg | muldiv | log2 | log10 | log256 | wadln | wadexp | cbrt | wadcbrt
  | divu
deriving DecidableEq, Repr

/-- A line `MNEMONIC[.UP] [#tag,] a [, b [, c]]` (R90). -/
structure AsmLine where
  op : AsmOp
  up : Bool
  tag : Option Nat
  operands : List Int
deriving DecidableEq, Repr

/-- Why the assembler refuses a line. R90 names the first; the others are lines outside its syntax (log entry 17). -/
inductive AsmError where
  /-- `.UP` on an opcode whose RND must be 0 (R90). -/
  | upNotAllowed
  /-- A tag above 255 (R90 "0 to 255"). -/
  | tagRange
  /-- A literal that is neither a Word nor an SWord. -/
  | literalRange
  /-- No operand, more than three, or not two for DIVU. -/
  | operandCount
deriving DecidableEq, Repr

/-- The opcode of a mnemonic (R84); DIVU expands to MULDIV (R91). -/
def AsmOp.opcode : AsmOp → BitVec 5
  | .avgu => 0x00
  | .avgs => 0x01
  | .ceildiv => 0x02
  | .isneg => 0x03
  | .muldiv => 0x04
  | .log2 => 0x05
  | .log10 => 0x06
  | .log256 => 0x07
  | .wadln => 0x08
  | .wadexp => 0x09
  | .cbrt => 0x0A
  | .wadcbrt => 0x0B
  | .divu => 0x04

/-- The mnemonics that may carry `.UP` (R84 column RND, R91). -/
def AsmOp.takesUp : AsmOp → Bool
  | .muldiv | .log2 | .log10 | .log256 | .cbrt | .divu => true
  | .avgu | .avgs | .ceildiv | .isneg | .wadln | .wadexp | .wadcbrt => false

/-- The pattern of a literal: a Word, or with a leading `-` an SWord carried as `u256(v)` (R90). -/
def asmLiteral (z : Int) : Except AsmError Word :=
  if minS ≤ z ∧ z ≤ maxW then .ok (u256 z) else .error .literalRange

/-- The three operands of a line; omitted ones are 0 (R90), and `DIVU x, d` is `MULDIV x, 1, d` (R91). -/
def asmOperands (op : AsmOp) (operands : List Int) : Except AsmError (Int × Int × Int) :=
  match op, operands with
  | .divu, [x, d] => .ok (x, 1, d)
  | .divu, _ => .error .operandCount
  | _, [a] => .ok (a, 0, 0)
  | _, [a, b] => .ok (a, b, 0)
  | _, [a, b, c] => .ok (a, b, c)
  | _, _ => .error .operandCount

/-- The packet of a line (R81, R90, R91). -/
def assemble (l : AsmLine) : Except AsmError Packet :=
  if l.up && !l.op.takesUp then .error .upNotAllowed
  else if 255 < l.tag.getD 0 then .error .tagRange
  else
    match asmOperands l.op l.operands with
    | .error e => .error e
    | .ok (a, b, c) =>
      match asmLiteral a, asmLiteral b, asmLiteral c with
      | .ok a, .ok b, .ok c => .ok ⟨commandWord l.op.opcode l.up (BitVec.ofNat 8 (l.tag.getD 0)), a, b, c⟩
      | .error e, _, _ => .error e
      | _, .error e, _ => .error e
      | _, _, .error e => .error e

/-! ## Reading a line of text -/

/-- A digit's value. -/
def digitValue (ch : Char) : Option Nat :=
  if '0' ≤ ch ∧ ch ≤ '9' then some (ch.toNat - '0'.toNat)
  else if 'a' ≤ ch ∧ ch ≤ 'f' then some (ch.toNat - 'a'.toNat + 10)
  else if 'A' ≤ ch ∧ ch ≤ 'F' then some (ch.toNat - 'A'.toNat + 10)
  else none

/-- The number that digits in a base write, continuing from `acc`. -/
def digitsFrom (base : Nat) : Nat → List Char → Option Nat
  | acc, [] => some acc
  | acc, ch :: rest =>
    match digitValue ch with
    | some v => if v < base then digitsFrom base (acc * base + v) rest else none
    | none => none

/-- A non-negative literal, decimal or `0x` hexadecimal (R90). The digits a to f in either case, and leading zeros, are the
model's choice (log entry 17). -/
def parseNat : List Char → Option Nat
  | [] => none
  | ['0', 'x'] => none
  | '0' :: 'x' :: rest => digitsFrom 16 0 rest
  | text => digitsFrom 10 0 text

/-- A literal, perhaps with a leading `-` (R90). -/
def parseInt : List Char → Option Int
  | '-' :: rest => (parseNat rest).map fun n => -(n : Int)
  | text => (parseNat text).map fun n => (n : Int)

/-- The fields between commas. -/
def splitCommas : List Char → List (List Char)
  | [] => [[]]
  | ch :: rest =>
    match splitCommas rest with
    | [] => [[ch]]
    | field :: fields => if ch = ',' then [] :: field :: fields else (ch :: field) :: fields

/-- A field without the spaces around it. That spaces there do not matter is the model's choice (log entry 17). -/
def trimSpaces (text : List Char) : List Char :=
  ((text.dropWhile (· == ' ')).reverse.dropWhile (· == ' ')).reverse

/-- All of a list's values, if each is there. -/
def allSome {α : Type} : List (Option α) → Option (List α)
  | [] => some []
  | none :: _ => none
  | some x :: rest => (allSome rest).map (x :: ·)

/-- The mnemonics' spellings (R84 Table 2, R91). -/
def asmNames : List (String × AsmOp) := [
  ("AVGU", .avgu), ("AVGS", .avgs), ("CEILDIV", .ceildiv), ("ISNEG", .isneg), ("MULDIV", .muldiv), ("LOG2", .log2),
  ("LOG10", .log10), ("LOG256", .log256), ("WADLN", .wadln), ("WADEXP", .wadexp), ("CBRT", .cbrt),
  ("WADCBRT", .wadcbrt), ("DIVU", .divu)]

/-- The mnemonic a text spells. -/
def parseMnemonic (text : List Char) : Option AsmOp :=
  (asmNames.find? fun entry => entry.1.toList == text).map (·.2)

/-- The suffix: `.UP` sets RND, `.DN` or none clears it (R90). -/
def parseSuffix : List Char → Option Bool
  | [] => some false
  | ['.', 'U', 'P'] => some true
  | ['.', 'D', 'N'] => some false
  | _ => none

/-- The fields after the mnemonic: an optional `#tag`, then the operands (R90). R90 gives the tag's range and no number
notation; that it is read in decimal or `0x` hexadecimal like an operand is the model's choice (log entry 17). -/
def parseFields : List (List Char) → Option (Option Nat × List Int)
  | ('#' :: digits) :: rest =>
    match parseNat digits, allSome (rest.map parseInt) with
    | some t, some zs => some (some t, zs)
    | _, _ => none
  | fields => (allSome (fields.map parseInt)).map fun zs => (none, zs)

/-- A line of text as an `AsmLine` (R90). -/
def parseLine (text : List Char) : Option AsmLine :=
  let text := trimSpaces text
  let head := text.takeWhile (· != ' ')
  match parseMnemonic (head.takeWhile (· != '.')), parseSuffix (head.dropWhile (· != '.')),
      parseFields ((splitCommas (text.dropWhile (· != ' '))).map trimSpaces) with
  | some op, some up, some (tag, operands) => some ⟨op, up, tag, operands⟩
  | _, _, _ => none

end Sys2Proof.Machine
end

