-- ==== Sys2Proof/Safety.lean ====
section
/-! DEFINITION. What claims use: the pure function `Exec` of a command, the invariant of a running core, the traffic of a
run at the two ports, and the closed and unbounded forms of the operations that the spec states beside its pseudocode. -/

namespace Sys2Proof.Machine

/-- `Exec(cmd)` (R41, R89): the response of a command, read from answering it in the reset state. That the state does
not matter (R7) is a claim, not part of this definition. `none` would be a stop. -/
def responseTo (k : Command) : Option Response :=
  match answer k State.reset with
  | .next t => t.rsp
  | .fault _ => none
  | .refused _ => none

/-- The invariant of a core that has been reset: R44, R46 (no response without a command) and R47, and the drawn
countdowns below LAT_MAX (R262). -/
structure Inv (s : State) : Prop where
  /-- `length(PEND) ≤ DEPTH` (R44). -/
  fits : s.pend.length ≤ Config.depth
  /-- `cmd_ready = 1` only with room (R44). -/
  ready : s.cmdReady = true → s.pend.length < Config.depth
  /-- A presented response is `Exec` of the head of PEND (R46, R47). -/
  presented : ∀ r, s.rsp = some r → ∃ k ks, s.pend = k :: ks ∧ responseTo k = some r
  /-- The head's delay is below LAT_MAX (R262 item 1). -/
  rspBound : s.rspWait < Config.latMax
  /-- The pause of `cmd_ready` is below LAT_MAX (R262 item 2). -/
  cmdBound : s.cmdWait < Config.latMax

/-- The state after `n` edges. -/
def runSteps (n : Nat) (s : State) : StepOutcome := Sys2Proof.core.run n s

/-- The commands that transfer in the next `n` edges, in order (R42). -/
def accepted : Nat → State → List Command
  | 0, _ => []
  | n + 1, s =>
    (if s.cmdTransfers then [s.pins.cmd.toCommand] else []) ++
      match step s with
      | .next t => accepted n t
      | .fault _ => []
      | .refused _ => []

/-- The responses that transfer in the next `n` edges, in order (R42). -/
def delivered : Nat → State → List Response
  | 0, _ => []
  | n + 1, s =>
    (if s.rspTransfers then s.rsp.toList else []) ++
      match step s with
      | .next t => delivered n t
      | .fault _ => []
      | .refused _ => []

/-- The input wires in the cycle `k` edges from now. -/
def State.pinsAt (s : State) : Nat → HostPins
  | 0 => s.pins
  | k + 1 => s.script.getD k (s.script.getLast?.getD s.pins)

/-- No reset at the next `n` edges. -/
def State.noReset (s : State) (n : Nat) : Prop := ∀ k, k < n → (s.pinsAt k).rst = false

/-! ## Closed forms -/

/-- `r = floor_log_b(x)` for `x ≥ 1` (R14). -/
def IsFloorLog (b x r : Nat) : Prop := b ^ r ≤ x ∧ x < b ^ (r + 1)

/-- `r` is the least number with `b^r ≥ x` (R142, R145, R148). -/
def IsCeilLog (b x r : Nat) : Prop := x ≤ b ^ r ∧ ∀ n, x ≤ b ^ n → r ≤ n

/-- `r = floor(cbrt(x))` (R204). -/
def IsFloorCbrt (x r : Nat) : Prop := r ^ 3 ≤ x ∧ x < (r + 1) ^ 3

/-! ## WADLN, WADEXP and WADCBRT over unbounded integers

No wrapping operation, no pattern and no probe occurs here: R165, R185 and R203 say that the machine's operations give
the same results. -/

/-- `floor(x · 2^(−k))` (R161). -/
def scaleDown (x k : Int) : Int := if 0 ≤ k then x / 2 ^ k.toNat else x * 2 ^ (-k).toNat

/-- A Horner step over unbounded integers. -/
def hornerExact (v acc c : Int) : Int := acc * v / 2 ^ 96 + c

/-- R164 for `x > 0`, over unbounded integers. -/
def lnUnbounded (x : Int) : Int :=
  let c := lnConst
  let k : Int := (Nat.log 2 x.toNat : Int) - 96
  let v := scaleDown x k
  let p := [c.p1, c.p2, c.p3, c.p4, c.p5].foldl (hornerExact v) (v + c.p0) * v - c.p6 * 2 ^ 96
  let q := [c.q1, c.q2, c.q3, c.q4, c.q5, c.q6].foldl (hornerExact v) (v + c.q0)
  (p.tdiv q * c.s1 + c.s2 * k + c.s3) / 2 ^ 174

/-- The operand in the 2^96 base (R181). -/
def expBaseExact (x : Int) : Int := (x * 2 ^ 78).tdiv (5 ^ 18)

/-- The binary exponent `k` (R181). -/
def expExponentExact (x : Int) : Int := ((expBaseExact x * 2 ^ 96).tdiv expConst.ln2 + 2 ^ 95) / 2 ^ 96

/-- The reduced argument (R181, R184). -/
def expReducedExact (x : Int) : Int := expBaseExact x - expExponentExact x * expConst.ln2

/-- R184 between the thresholds, over unbounded integers. -/
def expUnbounded (x : Int) : Int :=
  let c := expConst
  let v := expReducedExact x
  let y := (v + c.e0) * v / 2 ^ 96 + c.e1
  let p := ((y + v - c.e2) * y / 2 ^ 96 + c.e3) * v + c.e4 * 2 ^ 96
  let q := [-c.f2, c.f3, -c.f4, c.f5].foldl (hornerExact v) ((v - c.f0) * v / 2 ^ 96 + c.f1)
  p.tdiv q * c.sexp / 2 ^ (195 - expExponentExact x).toNat

/-- One refinement over natural numbers (R202). -/
def newtonExact (value y : Nat) : Nat := (2 * y + value / (y * y)) / 3

/-- The root of the scaled operand after seven refinements, over natural numbers (R202). -/
def cbrtRootUnbounded (x : Nat) : Nat :=
  let value := (cbrtScale x).1
  (newtonExact value)^[7] (cbrtSeed (Nat.log 2 value))

/-- R202 over natural numbers. -/
def wadCbrtUnbounded (x : Nat) : Nat := if x = 0 then 0 else cbrtRootUnbounded x * (cbrtScale x).2

end Sys2Proof.Machine
end

