-- ==== Sys2Proof/Certificates/Slice0/Obligations.lean ====
section
/-! DEFINITION. The statements for the provers. -/

open Sys2Proof Sys2Proof.Machine

/-! ## Encoding -/

/-- The 800 bits of every instruction's packet decode to that instruction, with every operand, tag and flag at every
value. -/
def Obligations.EncodedBitsDecodeBack : Prop :=
  ∀ i : Instr, decodePacket (Packet.ofBits (encode i).toBits) = .ok i

/-- A packet that decodes is the encoding of its instruction, but for the operands the opcode ignores. -/
def Obligations.DecodedPacketIsEncoding : Prop :=
  ∀ (p : Packet) (i : Instr), decodePacket p = .ok i →
    match i with
    | .muldiv .. => encode i = p
    | .avgu .. | .avgs .. | .ceildiv .. => encode i = { p with c := 0 }
    | .isneg .. | .log2 .. | .log10 .. | .log256 .. | .wadln .. | .wadexp .. | .cbrt .. | .wadcbrt .. =>
        encode i = { p with b := 0, c := 0 }

/-- The decoder accepts exactly the commands that no clause of R88 makes illegal. -/
def Obligations.DecoderAcceptsExactlyLegal : Prop :=
  ∀ k : Command, (∃ i, decodeCommand k = .ok i) ↔ k.legal = true

/-- A packet decodes to an instruction with mnemonic `m` exactly when its command word belongs to the opcode table's row
for `m`; and no word belongs to two rows. -/
def Obligations.DecoderAgreesWithOpcodeTable : Prop :=
  (∀ (p : Packet) (m : String), (∃ i, decodePacket p = .ok i ∧ i.mnemonic = m) ↔
    ∃ row ∈ opcodeTable, row.mnemonic = m ∧ row.covers p.word = true) ∧
  (∀ w : BitVec 32, ∀ r ∈ opcodeTable, ∀ r' ∈ opcodeTable, r.covers w = true → r'.covers w = true → r = r')

/-- The command words of R85, with every tag. -/
def Obligations.CommandWordsOfEveryOpcode : Prop :=
  ∀ (t : BitVec 8) (a b c : Word),
    let dec := fun w : Nat => decodePacket ⟨BitVec.ofNat 32 (w + t.toNat * 0x10000), a, b, c⟩
    dec 0x00000000 = .ok (.avgu t a b) ∧ dec 0x00000001 = .ok (.avgs t a b) ∧
    dec 0x00000002 = .ok (.ceildiv t a b) ∧ dec 0x00000003 = .ok (.isneg t a) ∧
    dec 0x00000004 = .ok (.muldiv t false a b c) ∧ dec 0x00000104 = .ok (.muldiv t true a b c) ∧
    dec 0x00000005 = .ok (.log2 t false a) ∧ dec 0x00000105 = .ok (.log2 t true a) ∧
    dec 0x00000006 = .ok (.log10 t false a) ∧ dec 0x00000106 = .ok (.log10 t true a) ∧
    dec 0x00000007 = .ok (.log256 t false a) ∧ dec 0x00000107 = .ok (.log256 t true a) ∧
    dec 0x00000008 = .ok (.wadln t a) ∧ dec 0x00000009 = .ok (.wadexp t a) ∧
    dec 0x0000000A = .ok (.cbrt t false a) ∧ dec 0x0000010A = .ok (.cbrt t true a) ∧
    dec 0x0000000B = .ok (.wadcbrt t a)

/-- R88: a command with a reserved bit set, a reserved opcode, or RND on an opcode without roundUp is answered
`(ILLEGAL, TAG, 0, 0)` with no other effect; and whatever command transfers, legal or not, joins the end of PEND. -/
def Obligations.IllegalCommandAnsweredInOrder : Prop :=
  (∀ (k : Command) (s : State),
    (k.rsv ≠ 0 ∨ 0x0C ≤ k.op.toNat ∨ (k.rnd = true ∧ k.op.toNat ∈ [0x00, 0x01, 0x02, 0x03, 0x08, 0x09, 0x0B])) →
    answer k s = .next (s.present ⟨.illegal, k.tag, 0, 0⟩)) ∧
  (∀ s : State, s.pins.rst = false → s.pins.cmdValid = true → s.cmdReady = true →
    s.pendAfterEdge.getLast? = some s.pins.cmd.toCommand)

/-- An operand that the opcode does not read has no effect on the response (C for every opcode but MULDIV, B for every
opcode but AVGU, AVGS, CEILDIV and MULDIV). -/
def Obligations.UnreadOperandsIgnored : Prop :=
  ∀ (k : Command) (b c : Word),
    (k.op.toNat ≠ 0x04 → responseTo { k with c := c } = responseTo k) ∧
    (k.op.toNat ∉ [0x00, 0x01, 0x02, 0x04] → responseTo { k with b := b } = responseTo k)

/-- R91: DIVU expands to MULDIV with the second operand 1, its value is floor(x/d), or ceil(x/d) with `.UP`, with
DIV_BY_ZERO when d = 0; CEILDIV and DIVU.UP agree in STATUS and RESULT for every x and d, and differ only in AUX, which
is x mod d for DIVU and DIVU.UP and 0 for CEILDIV. -/
def Obligations.DivuIsMuldivByOne : Prop :=
  ∀ (up : Bool) (tag : Option Nat) (x d : Int) (t : BitVec 8) (a b : Word) (s : State),
    assemble ⟨.divu, up, tag, [x, d]⟩ = assemble ⟨.muldiv, up, tag, [x, 1, d]⟩ ∧
    exec (.muldiv t up a 1 b) s = .next (s.present
      (if b = 0 then ⟨.divByZero, t, 0, 0⟩
       else ⟨.ok, t, BitVec.ofNat 256 (if up then (a.toNat + b.toNat - 1) / b.toNat else a.toNat / b.toNat),
         BitVec.ofNat 256 (a.toNat % b.toNat)⟩)) ∧
    exec (.ceildiv t a b) s = .next (s.present
      (if b = 0 then ⟨.divByZero, t, 0, 0⟩
       else ⟨.ok, t, BitVec.ofNat 256 ((a.toNat + b.toNat - 1) / b.toNat), 0⟩))

/-- The assembler refuses `.UP` on an opcode whose RND must be 0. Whatever it accepts is a legal command with the line's
flag and tag (0 by default), which decodes to the line's mnemonic (DIVU: MULDIV) and carries the operands in the order
A, B, C, each literal v as `u256(v)` and an omitted one as 0 (DIVU: A, 1, C). And it accepts every line with a tag up to
255, one to three operands (two for DIVU), each a Word or an SWord, and no `.UP` where RND must be 0; that it takes no
other line is the model's choice (log entry 17). -/
def Obligations.AssemblerEmitsOnlyLegalCommands : Prop :=
  (∀ l : AsmLine, l.up = true → l.op.takesUp = false → assemble l = .error .upNotAllowed) ∧
  (∀ (l : AsmLine) (p : Packet), assemble l = .ok p →
    p.toCommand.legal = true ∧ p.toCommand.rnd = l.up ∧ p.toCommand.tag.toNat = l.tag.getD 0 ∧
    (∀ name, (name, l.op) ∈ asmNames →
      ∃ i, decodePacket p = .ok i ∧ i.mnemonic = if l.op = .divu then "MULDIV" else name) ∧
    (l.op ≠ .divu → p.a = u256 (l.operands.getD 0 0) ∧ p.b = u256 (l.operands.getD 1 0) ∧
      p.c = u256 (l.operands.getD 2 0)) ∧
    (l.op = .divu → p.a = u256 (l.operands.getD 0 0) ∧ p.b = 1 ∧ p.c = u256 (l.operands.getD 1 0))) ∧
  (∀ l : AsmLine, (∃ p, assemble l = .ok p) ↔
    (l.up = true → l.op.takesUp = true) ∧ l.tag.getD 0 ≤ 255 ∧
    (if l.op = .divu then l.operands.length = 2 else 1 ≤ l.operands.length ∧ l.operands.length ≤ 3) ∧
    ∀ z ∈ l.operands, -(2 ^ 255) ≤ z ∧ z ≤ 2 ^ 256 - 1)

/-! ## The edge, the ports and the queue -/

/-- The step runs the decoded instruction: when the head of PEND after the edge decodes to `i` and no response is held
(none was presented, or it transfers at this edge), the step is `exec i` in the cycle that the edge begins if the head's
drawn delay has passed, and else a cycle of waiting. The second clause says the same of a packet placed at the head. The
content rests on the model's own choices: a step as an edge and its cycle (log entry 1), the drawn delay `rspWait` (log
entry 5) and `placeHead` (log entry 16). -/
def Obligations.StepRunsDecodedInstruction : Prop :=
  (∀ (s : State) (k : Command) (ks : List Command) (i : Instr),
    s.pins.rst = false → s.pendAfterEdge = k :: ks → (s.rsp = none ∨ s.rspTransfers = true) →
    decodeCommand k = .ok i →
    step s = if s.afterEdge.rspWait = 0 then exec i s.afterEdge else .next s.afterEdge.waitCycle) ∧
  (∀ (s : State) (p : Packet) (i : Instr), decodePacket p = .ok i →
    step (s.placeHead p) = exec i (s.placeHead p).afterEdge)

/-- R45: at an edge without reset, the head of PEND leaves if a response transfers, then the captured command joins the
end if a command transfers, and nothing else changes PEND. -/
def Obligations.PendChangesOnlyByTransfers : Prop :=
  ∀ s t : State, step s = .next t → s.pins.rst = false →
    t.pend = (if s.rsp.isSome && s.pins.rspReady then s.pend.tail else s.pend) ++
      (if s.pins.cmdValid && s.cmdReady then [s.pins.cmd.toCommand] else [])

/-- R250: at an edge with `rst = 1`, PEND becomes empty, nothing transfers, and the cycle that begins has `rsp_valid = 0`
and `cmd_ready = 0`. -/
def Obligations.ResetEmptiesPend : Prop :=
  ∀ s : State, s.pins.rst = true → s.cmdTransfers = false ∧ s.rspTransfers = false ∧
    ∃ t, step s = .next t ∧ t.pend = [] ∧ t.rsp = none ∧ t.cmdReady = false

/-- R251: a reset edge depends neither on the state before it nor on the other inputs, and holding `rst = 1` for another
edge leaves the same state. -/
def Obligations.ResetIgnoresInputsAndHistory : Prop :=
  (∀ s s' : State, s.pins.rst = true → s'.pins.rst = true → s.script ≠ [] → s'.script = s.script →
    s'.cycle = s.cycle → step s' = step s) ∧
  (∀ s t : State, s.pins.rst = true → step s = .next t → t.pins.rst = true →
    ∃ u, step t = .next u ∧ u.pend = t.pend ∧ u.rsp = t.rsp ∧ u.cmdReady = t.cmdReady)

/-- Every step from a state with the invariant leads to one with it. -/
def Obligations.StepKeepsQueueInvariant : Prop :=
  ∀ s t : State, Inv s → step s = .next t → Inv t

/-- The state after reset has the invariant. -/
def Obligations.ResetHasQueueInvariant : Prop := Inv State.reset

/-- R44: PEND never grows past DEPTH, `cmd_ready = 1` only in a cycle that starts with room, and a response that
transfers does not make room for a command at the same edge. -/
def Obligations.PendNeverExceedsDepth : Prop :=
  ∀ s t : State, s.pend.length ≤ Config.depth → (s.cmdReady = true → s.pend.length < Config.depth) →
    step s = .next t →
    t.pend.length ≤ Config.depth ∧ (t.cmdReady = true → t.pend.length < Config.depth) ∧
    (s.pend.length = Config.depth → s.cmdTransfers = false)

/-- A presented response is held, with every response wire steady, for any number of edges at which the host does not
take it and there is no reset; and no command is dropped meanwhile. -/
def Obligations.ResponseHeldUntilTaken : Prop :=
  ∀ (n : Nat) (s : State) (r : Response), s.rsp = some r →
    (∀ k, k < n → (s.pinsAt k).rst = false ∧ (s.pinsAt k).rspReady = false) →
    ∃ t, runSteps n s = .next t ∧ t.rsp = some r ∧ s.pend <+: t.pend ∧
      t.outputs.rspStatus = s.outputs.rspStatus ∧ t.outputs.rspTag = s.outputs.rspTag ∧
      t.outputs.rspResult = s.outputs.rspResult ∧ t.outputs.rspAux = s.outputs.rspAux

/-- R47: while `rsp_valid = 1` the response wires carry `Exec` of the head of PEND; with PEND empty `rsp_valid` is 0. -/
def Obligations.ResponseWiresCarryExecOfHead : Prop :=
  ∀ s t : State, Inv s → step s = .next t →
    (t.pend = [] → t.outputs.rspValid = false) ∧
    (t.outputs.rspValid = true → ∃ k ks r, t.pend = k :: ks ∧ responseTo k = some r ∧
      t.outputs.rspStatus = r.status.code ∧ t.outputs.rspTag = r.tag ∧ r.tag = k.tag ∧
      t.outputs.rspResult = r.result ∧ t.outputs.rspAux = r.aux)

/-- Over any number of edges without reset, the responses delivered followed by `Exec` of what is still in PEND are
`Exec` of what was in PEND followed by `Exec` of what was accepted: responses leave in acceptance order, one for each
command, none reordered, none dropped. -/
def Obligations.ResponsesInAcceptanceOrder : Prop :=
  ∀ (n : Nat) (s t : State), Inv s → s.noReset n → runSteps n s = .next t →
    (delivered n s).map some ++ t.pend.map responseTo =
      s.pend.map responseTo ++ (accepted n s).map responseTo

/-- Two runs that hold the same commands and accept the same commands deliver the same responses in the same order, as
far as both have come, whatever the timing of either: the draws, the pauses and the back-pressure change no value. -/
def Obligations.TimingNeverChangesResponses : Prop :=
  ∀ (n n' : Nat) (s s' t t' : State), Inv s → Inv s' → s.noReset n → s'.noReset n' →
    runSteps n s = .next t → runSteps n' s' = .next t' → s.pend = s'.pend → accepted n s = accepted n' s' →
    delivered n s <+: delivered n' s' ∨ delivered n' s' <+: delivered n s

/-- R262 item 1: a command that becomes the head of PEND at an edge is answered, and its response presented, in one of
the LAT_MAX cycles that follow that edge. -/
def Obligations.HeadAnsweredWithinLatMax : Prop :=
  ∀ s : State, Inv s → s.headArrives = true → s.noReset Config.latMax →
    ∃ n t k ks r, n < Config.latMax ∧ runSteps (n + 1) s = .next t ∧ s.pendAfterEdge = k :: ks ∧
      responseTo k = some r ∧ t.rsp = some r ∧ t.pend.head? = some k

/-- R262 item 2: if PEND has room at the start of each of LAT_MAX consecutive cycles, `cmd_ready` is 1 in at least one of
them. -/
def Obligations.ReadyWithinLatMaxWhileRoom : Prop :=
  ∀ s : State, s.cmdWait < Config.latMax → s.noReset Config.latMax →
    (∀ n t, n < Config.latMax → runSteps (n + 1) s = .next t → t.pend.length < Config.depth) →
    ∃ n t, n < Config.latMax ∧ runSteps (n + 1) s = .next t ∧ t.cmdReady = true

/-- The command wires are ignored at an edge without a transfer: with `cmd_ready = 0` neither `cmd_valid` nor the command
buses matter, and with `cmd_valid = 0` the buses do not. -/
def Obligations.CommandWiresIgnoredWithoutTransfer : Prop :=
  ∀ (s : State) (v : Bool) (p : Packet), s.script ≠ [] →
    (s.cmdReady = false → step { s with pins := { s.pins with cmdValid := v, cmd := p } } = step s) ∧
    (s.pins.cmdValid = false → step { s with pins := { s.pins with cmd := p } } = step s)

/-! ## Every instruction -/

/-- Every instruction completes in every state, with one response that does not depend on the state, carries its tag,
is never ILLEGAL, and has RESULT = 0 and AUX = 0 unless its STATUS is OK. -/
def Obligations.EveryInstructionCompletesPurely : Prop :=
  ∀ i : Instr, ∃ r : Response, (∀ s : State, exec i s = .next (s.present r)) ∧ r.tag = i.tag ∧
    r.status ≠ .illegal ∧ (r.status ≠ .ok → r.result = 0 ∧ r.aux = 0)

/-- No step stops: every state has a next state, so no run meets a zero divisor. -/
def Obligations.EveryStepGoesOn : Prop := ∀ s : State, ∃ t, step s = .next t

/-- The frame of every instruction: it changes the response port and nothing else. -/
def Obligations.InstructionChangesOnlyResponse : Prop :=
  ∀ (i : Instr) (s t : State), exec i s = .next t →
    t.pend = s.pend ∧ t.cmdReady = s.cmdReady ∧ t.pins = s.pins ∧ t.script = s.script ∧
    t.rspWait = s.rspWait ∧ t.cmdWait = s.cmdWait ∧ t.cycle = s.cycle

/-- Which statuses each opcode reports, and when, and that AUX is 0 for every opcode but MULDIV: CEILDIV and MULDIV fail
DIV_BY_ZERO exactly on a zero divisor, MULDIV fails OVERFLOW exactly when its rounded quotient exceeds MAXW, WADLN fails
UNDEFINED exactly below 0, WADEXP fails OVERFLOW exactly from its upper threshold on, and all else is OK. -/
def Obligations.StatusesOfEachOpcode : Prop :=
  ∀ (i : Instr) (s t : State) (r : Response), exec i s = .next t → t.rsp = some r →
    match i with
    | .avgu .. | .avgs .. | .isneg .. | .log2 .. | .log10 .. | .log256 .. | .cbrt .. | .wadcbrt .. =>
        r.status = .ok ∧ r.aux = 0
    | .ceildiv _ _ y => (r.status = .divByZero ↔ y = 0) ∧ (y ≠ 0 → r.status = .ok) ∧ r.aux = 0
    | .muldiv _ up x y d =>
        let v := if up then (x.toNat * y.toNat + d.toNat - 1) / d.toNat else x.toNat * y.toNat / d.toNat
        (r.status = .divByZero ↔ d = 0) ∧ (r.status = .overflow ↔ d ≠ 0 ∧ 2 ^ 256 - 1 < v) ∧
        (r.status = .ok ↔ d ≠ 0 ∧ v ≤ 2 ^ 256 - 1)
    | .wadln _ x => (r.status = .undefined ↔ s256 x < 0) ∧ (0 ≤ s256 x → r.status = .ok) ∧ r.aux = 0
    | .wadexp _ x => (r.status = .overflow ↔ 135305999368893231589 ≤ s256 x) ∧
        (s256 x < 135305999368893231589 → r.status = .ok) ∧ r.aux = 0

/-- R222: the outcomes that are successes with result 0, and the opcodes that never fail on a legal command. -/
def Obligations.ZeroOutcomesAreSuccesses : Prop :=
  (∀ (tag : BitVec 8) (up : Bool) (x : Word) (s : State),
    (s256 x ≤ -42139678854452767551 → exec (.wadexp tag x) s = .next (s.present ⟨.ok, tag, 0, 0⟩)) ∧
    (x ≠ 0 → exec (.ceildiv tag 0 x) s = .next (s.present ⟨.ok, tag, 0, 0⟩)) ∧
    exec (.log2 tag up 0) s = .next (s.present ⟨.ok, tag, 0, 0⟩) ∧
    exec (.log10 tag up 0) s = .next (s.present ⟨.ok, tag, 0, 0⟩) ∧
    exec (.log256 tag up 0) s = .next (s.present ⟨.ok, tag, 0, 0⟩) ∧
    exec (.wadln tag 0) s = .next (s.present ⟨.ok, tag, 0, 0⟩) ∧
    exec (.cbrt tag up 0) s = .next (s.present ⟨.ok, tag, 0, 0⟩) ∧
    exec (.wadcbrt tag 0) s = .next (s.present ⟨.ok, tag, 0, 0⟩)) ∧
  (∀ (k : Command) (r : Response), k.legal = true →
    k.op.toNat ∈ [0x00, 0x01, 0x03, 0x05, 0x06, 0x07, 0x0A, 0x0B] → responseTo k = some r → r.status = .ok)

/-- The status codes on the wire are those of R220 Table 1, and the codes 5 to 15 stand for none. -/
def Obligations.StatusCodesOfTable : Prop :=
  (Status.ok.code = 0 ∧ Status.divByZero.code = 1 ∧ Status.overflow.code = 2 ∧ Status.undefined.code = 3 ∧
    Status.illegal.code = 4) ∧
  (∀ st : Status, Status.ofCode st.code = some st) ∧
  (∀ c : BitVec 4, 5 ≤ c.toNat → Status.ofCode c = none ∧ ∀ st : Status, st.code ≠ c)

/-! ## Notation -/

/-- R17: `shl` and `shr` are multiplication and floor division by 2^n mod 2^256, 0 for n ≥ 256, and `sar` of an SWord is
the floor of the division, 0 or −1 by sign for n ≥ 256. -/
def Obligations.ShiftsFollowNotation : Prop :=
  ∀ (w : Word) (n : Nat),
    (shl w n).toNat = w.toNat * 2 ^ n % 2 ^ 256 ∧ (256 ≤ n → shl w n = 0) ∧
    (shr w n).toNat = w.toNat / 2 ^ n ∧ (256 ≤ n → shr w n = 0) ∧
    sar (s256 w) n = s256 w / 2 ^ n ∧
    (256 ≤ n → sar (s256 w) n = if 0 ≤ s256 w then 0 else -1)

/-- Signed division of SWords truncates toward zero and wraps only at MINS / −1; a zero divisor has no result. -/
def Obligations.SignedDivisionTruncates : Prop :=
  ∀ a b : Word,
    (b = 0 → sdiv (s256 a) (s256 b) = none) ∧
    (b ≠ 0 → ∃ q : Int, sdiv (s256 a) (s256 b) = some q ∧
      (if s256 a = -(2 ^ 255) ∧ s256 b = -1 then q = -(2 ^ 255)
       else |q| = |s256 a| / |s256 b| ∧ (q ≠ 0 → (0 < q ↔ (0 < s256 a ↔ 0 < s256 b)))))

/-! ## Elementary operations -/

/-- R101: AVGU completes with `floor((x + y) / 2)`. -/
def Obligations.AvguIsFloorOfMean : Prop :=
  ∀ (tag : BitVec 8) (x y : Word) (s : State), exec (.avgu tag x y) s =
    .next (s.present ⟨.ok, tag, BitVec.ofNat 256 ((x.toNat + y.toNat) / 2), 0⟩)

/-- R103: AVGS completes with `floor((x + y) / 2)` of the signed operands, toward negative infinity, and the sum of the
shifted operands never leaves the SWord range. -/
def Obligations.AvgsIsFloorOfSignedMean : Prop :=
  ∀ (tag : BitVec 8) (x y : Word) (s : State),
    exec (.avgs tag x y) s = .next (s.present ⟨.ok, tag, u256 ((s256 x + s256 y) / 2), 0⟩) ∧
    s256 (u256 ((s256 x + s256 y) / 2)) = (s256 x + s256 y) / 2 ∧
    -(2 ^ 255) ≤ sar (s256 x) 1 + sar (s256 y) 1 ∧ sar (s256 x) 1 + sar (s256 y) 1 ≤ 2 ^ 255 - 2

/-- R105: for `y ≠ 0` CEILDIV completes with the least integer q with `q·y ≥ x`, which fits in a Word. -/
def Obligations.CeildivIsLeastCover : Prop :=
  ∀ (tag : BitVec 8) (x y : Word) (s : State), y ≠ 0 →
    ∃ q : Word, exec (.ceildiv tag x y) s = .next (s.present ⟨.ok, tag, q, 0⟩) ∧
      x.toNat ≤ q.toNat * y.toNat ∧ ∀ n : Nat, x.toNat ≤ n * y.toNat → q.toNat ≤ n

/-- A zero divisor fails DIV_BY_ZERO before anything else: CEILDIV with `y = 0` whatever x is, `x = 0` included, and MULDIV
with `d = 0` whatever x and y are. -/
def Obligations.ZeroDivisorsFail : Prop :=
  ∀ (tag : BitVec 8) (up : Bool) (x y : Word) (s : State),
    exec (.ceildiv tag x 0) s = .next (s.present ⟨.divByZero, tag, 0, 0⟩) ∧
    exec (.muldiv tag up x y 0) s = .next (s.present ⟨.divByZero, tag, 0, 0⟩)

/-- ISNEG completes with 1 when the operand is negative and 0 otherwise, which is bit 255 of its pattern. -/
def Obligations.IsnegIsTopBit : Prop :=
  ∀ (tag : BitVec 8) (x : Word) (s : State),
    exec (.isneg tag x) s = .next (s.present ⟨.ok, tag, if s256 x < 0 then 1 else 0, 0⟩) ∧
    (s256 x < 0 ↔ x.getLsbD 255 = true)

/-! ## Multiply and divide -/

/-- R120: the wide multiplier is exact, its low word is the wrapping product, its high word is at most `2^256 − 2`, and
`MUL512(MAXW, MAXW) = (2^256 − 2, 1)`. -/
def Obligations.WideProductIsExact : Prop :=
  (∀ x y : Word, (mul512 x y).high.toNat * 2 ^ 256 + (mul512 x y).low.toNat = x.toNat * y.toNat ∧
    (mul512 x y).high.toNat = x.toNat * y.toNat / 2 ^ 256 ∧ (mul512 x y).low = mulW x y ∧
    (mul512 x y).high.toNat ≤ 2 ^ 256 - 2) ∧
  mul512 (BitVec.ofNat 256 (2 ^ 256 - 1)) (BitVec.ofNat 256 (2 ^ 256 - 1)) =
    ⟨BitVec.ofNat 256 (2 ^ 256 - 2), 1⟩

/-- The Chinese-remainder construction with the modulus `2^256 − 1` gives the exact product for every input. -/
def Obligations.CrtProductIsExact : Prop := ∀ x y : Word, mul512Crt x y = mul512 x y

/-- The modular-inverse construction gives the exact quotient and remainder wherever the divider is asked to divide. -/
def Obligations.InverseDivisionIsExact : Prop :=
  ∀ (p : WidePair) (d : Word), p.high.toNat < d.toNat → div512Inverse p d = div512 p d

/-- R125: for `d ≠ 0`, with P = x·y and v = floor(P/d), or ceil(P/d) when rounding up, MULDIV completes with v and
AUX = P mod d when `v ≤ MAXW`, and with OVERFLOW when `v > MAXW`. -/
def Obligations.MuldivClosedForm : Prop :=
  ∀ (tag : BitVec 8) (up : Bool) (x y d : Word) (s : State), d ≠ 0 →
    let prod := x.toNat * y.toNat
    let v := if up then (prod + d.toNat - 1) / d.toNat else prod / d.toNat
    exec (.muldiv tag up x y d) s = .next (s.present
      (if v ≤ 2 ^ 256 - 1 then ⟨.ok, tag, BitVec.ofNat 256 v, BitVec.ofNat 256 (prod % d.toNat)⟩
       else ⟨.overflow, tag, 0, 0⟩))

/-- R126: a successful MULDIV with RND = 0 has `x·y = q·d + r`, `r = (x·y) mod d < d`; with RND = 1 on the same operands
the result is q + 1 when `r > 0` and q when `r = 0`, and OVERFLOW when `q = MAXW` and `r > 0`. -/
def Obligations.MuldivInverseLaw : Prop :=
  ∀ (tag : BitVec 8) (x y d : Word) (s t : State) (q r : Word),
    exec (.muldiv tag false x y d) s = .next t → t.rsp = some ⟨.ok, tag, q, r⟩ →
    x.toNat * y.toNat = q.toNat * d.toNat + r.toNat ∧ r.toNat = x.toNat * y.toNat % d.toNat ∧ r.toNat < d.toNat ∧
    exec (.muldiv tag true x y d) s = .next (s.present
      (if r = 0 then ⟨.ok, tag, q, r⟩
       else if q.toNat = 2 ^ 256 - 1 then ⟨.overflow, tag, 0, 0⟩
       else ⟨.ok, tag, BitVec.ofNat 256 (q.toNat + 1), r⟩))

/-- R127: where the product fits in one word, the rounded-up quotient never exceeds MAXW: a divisor 1 leaves no
remainder, and a divisor of at least 2 a quotient of at most floor(MAXW/2), so OVERFLOW is never raised. -/
def Obligations.OneWordProductNeverOverflows : Prop :=
  ∀ (tag : BitVec 8) (up : Bool) (x y d : Word) (s : State), (mul512 x y).high = 0 → d ≠ 0 →
    (d = 1 → (mul512 x y).low.toNat % d.toNat = 0) ∧
    (2 ≤ d.toNat → (mul512 x y).low.toNat / d.toNat ≤ (2 ^ 256 - 1) / 2) ∧
    ∃ q r : Word, exec (.muldiv tag up x y d) s = .next (s.present ⟨.ok, tag, q, r⟩)

/-! ## Logarithms -/

/-- R142: LOG2 completes with 0 for x = 0, with floor_log_2(x) for RND = 0, and with the least r with `2^r ≥ x` for
RND = 1, which is floor_log_2(x) for a power of two and one more otherwise. -/
def Obligations.Log2ClosedForm : Prop :=
  ∀ (tag : BitVec 8) (up : Bool) (x : Word) (s : State), ∃ r : Nat, r ≤ 256 ∧
    exec (.log2 tag up x) s = .next (s.present ⟨.ok, tag, BitVec.ofNat 256 r, 0⟩) ∧
    (x = 0 → r = 0) ∧ (x ≠ 0 → up = false → IsFloorLog 2 x.toNat r) ∧ (x ≠ 0 → up = true → IsCeilLog 2 x.toNat r) ∧
    (∀ f, up = true → IsFloorLog 2 x.toNat f → r = if x.toNat = 2 ^ f then f else f + 1)

/-- R145: LOG10 completes with 0 for x = 0, with floor_log_10(x) for RND = 0, and with the least r with `10^r ≥ x` for
RND = 1, which is floor_log_10(x) for a power of ten and one more otherwise. -/
def Obligations.Log10ClosedForm : Prop :=
  ∀ (tag : BitVec 8) (up : Bool) (x : Word) (s : State), ∃ r : Nat, r ≤ 78 ∧
    exec (.log10 tag up x) s = .next (s.present ⟨.ok, tag, BitVec.ofNat 256 r, 0⟩) ∧
    (x = 0 → r = 0) ∧ (x ≠ 0 → up = false → IsFloorLog 10 x.toNat r) ∧
    (x ≠ 0 → up = true → IsCeilLog 10 x.toNat r) ∧
    (∀ f, up = true → IsFloorLog 10 x.toNat f → r = if x.toNat = 10 ^ f then f else f + 1)

/-- R148: LOG256 completes with 0 for x = 0, with floor_log_256(x) = floor(floor_log_2(x) / 8) for RND = 0, and with the
least r with `256^r ≥ x` for RND = 1. -/
def Obligations.Log256ClosedForm : Prop :=
  ∀ (tag : BitVec 8) (up : Bool) (x : Word) (s : State), ∃ r : Nat, r ≤ 32 ∧
    exec (.log256 tag up x) s = .next (s.present ⟨.ok, tag, BitVec.ofNat 256 r, 0⟩) ∧
    (x = 0 → r = 0) ∧ (x ≠ 0 → up = false → IsFloorLog 256 x.toNat r) ∧
    (x ≠ 0 → up = true → IsCeilLog 256 x.toNat r) ∧
    (∀ f, up = false → IsFloorLog 2 x.toNat f → r = f / 8)

/-- R149: for each base and each rounding, the result is monotonic non-decreasing in x over all Words. -/
def Obligations.LogsAreMonotonic : Prop :=
  ∀ (up : Bool) (x y : Word), x.toNat ≤ y.toNat →
    log2Probe x up ≤ log2Probe y up ∧ log10Probe x up ≤ log10Probe y up ∧ log256Probe x up ≤ log256Probe y up

/-! ## Natural logarithm -/

/-- WADLN of a negative operand fails UNDEFINED, and of 0 gives 0. -/
def Obligations.WadlnOutsideDomain : Prop :=
  ∀ (tag : BitVec 8) (x : Word) (s : State),
    (s256 x < 0 → exec (.wadln tag x) s = .next (s.present ⟨.undefined, tag, 0, 0⟩)) ∧
    (s256 x = 0 → exec (.wadln tag x) s = .next (s.present ⟨.ok, tag, 0, 0⟩))

/-- R161: for `x > 0`, k lies in [−96, 158] and the shift amount 159 − k in [1, 255]; the left shift moves the most
significant set bit to bit 255 and loses no set bit; and the normalized value is floor(x · 2^(−k)), in [2^96, 2^97). -/
def Obligations.WadlnNormalizesOperand : Prop :=
  ∀ x : Word, 0 < s256 x →
    let k := lnExponent (s256 x)
    (-96 ≤ k ∧ k ≤ 158) ∧ (1 ≤ 159 - k ∧ 159 - k ≤ 255) ∧
    (shl x (159 - k).toNat).toNat = x.toNat * 2 ^ (159 - k).toNat ∧ 2 ^ 255 ≤ (shl x (159 - k).toNat).toNat ∧
    lnNormalize (s256 x) k = scaleDown (s256 x) k ∧
    2 ^ 96 ≤ lnNormalize (s256 x) k ∧ lnNormalize (s256 x) k < 2 ^ 97

/-- R166: for every `x > 0` the divisor of WADLN is positive. -/
def Obligations.WadlnDivisorPositive : Prop :=
  ∀ x : Word, 0 < s256 x → 0 < lnDenominator lnConst (lnNormalize (s256 x) (lnExponent (s256 x)))

/-- WADLN of `x > 0` completes with the value that the same formula has over unbounded integers: no wrapping operation
changes it. -/
def Obligations.WadlnExactOverIntegers : Prop :=
  ∀ (tag : BitVec 8) (x : Word) (s : State), 0 < s256 x →
    exec (.wadln tag x) s = .next (s.present ⟨.ok, tag, u256 (lnUnbounded (s256 x)), 0⟩) ∧
    s256 (u256 (lnUnbounded (s256 x))) = lnUnbounded (s256 x)

/-! ## Natural exponential -/

/-- WADEXP at or below the lower threshold gives 0, and at or above the upper one fails OVERFLOW. -/
def Obligations.WadexpOutsideDomain : Prop :=
  ∀ (tag : BitVec 8) (x : Word) (s : State),
    (s256 x ≤ -42139678854452767551 → exec (.wadexp tag x) s = .next (s.present ⟨.ok, tag, 0, 0⟩)) ∧
    (135305999368893231589 ≤ s256 x → exec (.wadexp tag x) s = .next (s.present ⟨.overflow, tag, 0, 0⟩))

/-- On the domain, WADEXP's range reduction is that of the unbounded formula, its exponent lies in [−61, 195], reached at
both ends, and the reduced argument stays below 0.35 · 2^96 in magnitude. -/
def Obligations.WadexpReducesOperand : Prop :=
  (∀ x : Int, -42139678854452767551 < x → x < 135305999368893231589 →
    expBase x = some (expBaseExact x) ∧ expExponent expConst (expBaseExact x) = some (expExponentExact x) ∧
    -61 ≤ expExponentExact x ∧ expExponentExact x ≤ 195 ∧
    expReduce expConst (expBaseExact x) (expExponentExact x) = expReducedExact x ∧
    -(35 * 2 ^ 96) < 100 * expReducedExact x ∧ 100 * expReducedExact x < 35 * 2 ^ 96) ∧
  expExponentExact (-42139678854452767550) = -61 ∧ expExponentExact 135305999368893231588 = 195

/-- R186: on the domain the divisor of WADEXP is positive. -/
def Obligations.WadexpDivisorPositive : Prop :=
  ∀ x : Int, -42139678854452767551 < x → x < 135305999368893231589 →
    0 < expDenominator expConst (expReducedExact x)

/-- Between the thresholds WADEXP completes with the value that the same formula has over unbounded integers, which is not
negative and below 2^255, so that the signed result is that value. -/
def Obligations.WadexpExactOverIntegers : Prop :=
  ∀ (tag : BitVec 8) (x : Word) (s : State), -42139678854452767551 < s256 x → s256 x < 135305999368893231589 →
    exec (.wadexp tag x) s = .next (s.present ⟨.ok, tag, u256 (expUnbounded (s256 x)), 0⟩) ∧
    0 ≤ expUnbounded (s256 x) ∧ expUnbounded (s256 x) < 2 ^ 255 ∧
    s256 (u256 (expUnbounded (s256 x))) = expUnbounded (s256 x)

/-! ## Cube roots -/

/-- R201: the seed is `udiv(2^udiv(l, 3) · 1260^(l mod 3), 1000^(l mod 3))`, at least 1 for every l, and for the l that
log2Floor can give its product is at most `2^85 · 1260^2 < 2^256`. -/
def Obligations.CbrtSeedInRange : Prop :=
  ∀ l : Nat, udiv (2 ^ (l / 3) * 1260 ^ (l % 3)) (1000 ^ (l % 3)) = some (cbrtSeed l) ∧ 1 ≤ cbrtSeed l ∧
    (l ≤ 255 → 2 ^ (l / 3) * 1260 ^ (l % 3) ≤ 2 ^ 85 * 1260 ^ 2 ∧ 2 ^ 85 * 1260 ^ 2 < 2 ^ 256)

/-- WADCBRT completes with the root that seven refinements over natural numbers give, rescaled, which fits in a Word. -/
def Obligations.WadcbrtExactOverNaturals : Prop :=
  ∀ (tag : BitVec 8) (x : Word) (s : State),
    exec (.wadcbrt tag x) s = .next (s.present ⟨.ok, tag, BitVec.ofNat 256 (wadCbrtUnbounded x.toNat), 0⟩) ∧
    wadCbrtUnbounded x.toNat < 2 ^ 256

/-- Throughout WADCBRT the scaled operand fits in a Word, and the refined root stays at least 1, so no division has a zero
divisor. -/
def Obligations.WadcbrtRootStaysPositive : Prop :=
  ∀ (x : Word) (n : Nat), x ≠ 0 →
    1 ≤ (cbrtScale x.toNat).1 ∧ (cbrtScale x.toNat).1 < 2 ^ 256 ∧
    1 ≤ (newtonExact (cbrtScale x.toNat).1)^[n] (cbrtSeed (Nat.log 2 (cbrtScale x.toNat).1))

/-- CBRT completes with `floor(WADCBRT(x) / 10^12)`, one more when rounding up and the cube differs from x. -/
def Obligations.CbrtFromWadcbrt : Prop :=
  ∀ (tag : BitVec 8) (up : Bool) (x : Word) (s : State),
    let y := wadCbrtUnbounded x.toNat / 10 ^ 12
    exec (.cbrt tag up x) s = .next (s.present
      ⟨.ok, tag, BitVec.ofNat 256 (if up = true ∧ y ^ 3 % 2 ^ 256 ≠ x.toNat then y + 1 else y), 0⟩)

/-- At x = 2^171 − 1, CBRT gives 2^57, though the floor of the cube root is 2^57 − 1, and CBRT.UP gives 2^57 + 1. -/
def Obligations.CbrtMissesFloorBelowCube : Prop :=
  ∀ (tag : BitVec 8) (s : State),
    exec (.cbrt tag false (BitVec.ofNat 256 (2 ^ 171 - 1))) s =
      .next (s.present ⟨.ok, tag, BitVec.ofNat 256 (2 ^ 57), 0⟩) ∧
    exec (.cbrt tag true (BitVec.ofNat 256 (2 ^ 171 - 1))) s =
      .next (s.present ⟨.ok, tag, BitVec.ofNat 256 (2 ^ 57 + 1), 0⟩) ∧
    IsFloorCbrt (2 ^ 171 - 1) (2 ^ 57 - 1)

/-- The bracket of R204: WADCBRT lies between floor(cbrt(x))·10^12 and (floor(cbrt(x)) + 1)·10^12. The spec has evidence
for it and no proof. -/
def Obligations.WadcbrtBracketsRoot : Prop :=
  ∀ (x : Word) (f : Nat), IsFloorCbrt x.toNat f →
    f * 10 ^ 12 ≤ wadCbrtUnbounded x.toNat ∧ wadCbrtUnbounded x.toNat ≤ (f + 1) * 10 ^ 12
end

