-- ==== Sys2Proof/Laws/Assembler.lean ====
section
/-! SUPPORT. What the assembler can do, once. -/

namespace Sys2Proof.Machine

/-- A literal is accepted exactly when it is a Word or an SWord, and carried as its pattern. -/
theorem asmLiteral_ok_iff {z : Int} {a : Word} :
    asmLiteral z = .ok a ↔ (minS ≤ z ∧ z ≤ maxW) ∧ a = u256 z := by
  unfold asmLiteral
  split <;> simp_all [eq_comm]

/-- A line is accepted exactly when its flag, tag, operand count and literals are, and then gives this packet. -/
theorem assemble_ok_iff {l : AsmLine} {p : Packet} :
    assemble l = .ok p ↔
      (l.up && !l.op.takesUp) = false ∧ l.tag.getD 0 ≤ 255 ∧
      ∃ a b c, asmOperands l.op l.operands = .ok (a, b, c) ∧
        (minS ≤ a ∧ a ≤ maxW) ∧ (minS ≤ b ∧ b ≤ maxW) ∧ (minS ≤ c ∧ c ≤ maxW) ∧
        p = ⟨commandWord l.op.opcode l.up (BitVec.ofNat 8 (l.tag.getD 0)), u256 a, u256 b, u256 c⟩ := by
  unfold assemble
  by_cases hu : (l.up && !l.op.takesUp) = true
  · simp [hu]
  rw [if_neg hu]
  by_cases ht : 255 < l.tag.getD 0
  · simp [ht, Nat.not_le.2 ht]
  rw [if_neg ht]
  cases ho : asmOperands l.op l.operands with
  | error e => simp
  | ok abc =>
    obtain ⟨a, b, c⟩ := abc
    dsimp only
    constructor
    · intro h
      split at h <;> cases h
      rename_i ha hb hc
      obtain ⟨la, rfl⟩ := asmLiteral_ok_iff.1 ha
      obtain ⟨lb, rfl⟩ := asmLiteral_ok_iff.1 hb
      obtain ⟨lc, rfl⟩ := asmLiteral_ok_iff.1 hc
      exact ⟨by simpa using hu, by omega, a, b, c, rfl, la, lb, lc, rfl⟩
    · rintro ⟨_, _, _, _, _, h, ha, hb, hc, rfl⟩
      cases h
      rw [asmLiteral_ok_iff.2 ⟨ha, rfl⟩, asmLiteral_ok_iff.2 ⟨hb, rfl⟩, asmLiteral_ok_iff.2 ⟨hc, rfl⟩]

end Sys2Proof.Machine
end

