-- ==== Sys2Proof/Laws/Decode.lean ====
section
/-! SUPPORT. The fields of a command word (30_encoding.md R81) and the 800-bit numbering of a packet. -/

namespace Sys2Proof

/-- A concatenation is 0 exactly when each of its parts is. -/
theorem append3_eq_zero_iff {x : BitVec 8} {y : BitVec 7} {z : BitVec 3} :
    (x ++ y ++ z : BitVec (8 + 7 + 3)) = 0 ↔ x = 0 ∧ y = 0 ∧ z = 0 := by
  simp only [← BitVec.toNat_inj, BitVec.toNat_append, BitVec.ofNat_eq_ofNat, BitVec.toNat_ofNat, Nat.zero_mod,
    Nat.or_eq_zero_iff, Nat.shiftLeft_eq_zero_iff]
  simp [and_assoc]

/-- RSV is 0 exactly when the three reserved fields are (R81). -/
theorem toCommand_rsv_eq_zero_iff (p : Packet) : p.toCommand.rsv = 0 ↔
    p.word.extractLsb' 24 8 = 0 ∧ p.word.extractLsb' 9 7 = 0 ∧ p.word.extractLsb' 5 3 = 0 :=
  append3_eq_zero_iff

/-- The command word that `commandWord` lays out carries exactly its fields, and no reserved bit. -/
theorem toCommand_commandWord (op : BitVec 5) (rnd : Bool) (tag : BitVec 8) (a b c : Word) :
    Packet.toCommand ⟨commandWord op rnd tag, a, b, c⟩ = ⟨op, rnd, tag, 0, a, b, c⟩ := by
  have hrsv := (toCommand_rsv_eq_zero_iff ⟨commandWord op rnd tag, a, b, c⟩).mpr
  simp only [Packet.toCommand, Command.mk.injEq, and_true] at hrsv ⊢
  refine ⟨?_, by simp [commandWord], ?_, hrsv ⟨?_, ?_, ?_⟩⟩ <;> apply BitVec.eq_of_getLsbD_eq <;> intro i hi <;>
    interval_cases i <;> simp [commandWord]

/-- A packet is read back from its 800-bit number. -/
theorem ofBits_toBits (p : Packet) : Packet.ofBits p.toBits = p := by
  obtain ⟨w, a, b, c⟩ := p
  have hw := w.isLt
  have ha := a.isLt
  have hb := b.isLt
  have hc := c.isLt
  simp only [Packet.ofBits, Packet.toBits, Packet.mk.injEq, Nat.shiftRight_eq_div_pow]
  refine ⟨?_, ?_, ?_, ?_⟩ <;> apply BitVec.eq_of_toNat_eq <;> rw [BitVec.toNat_ofNat] <;> omega

end Sys2Proof
end

