-- ==== Sys2Proof/Laws/State.lean ====
section
/-! SUPPORT. One lemma per field per update of `State`, so that no later proof unfolds a record update. -/

namespace Sys2Proof.Machine

variable (s : State) (r : Response) (p : Packet)

/-! `State.present` -/

@[simp] theorem State.present_pend : (s.present r).pend = s.pend := rfl
@[simp] theorem State.present_cmdReady : (s.present r).cmdReady = s.cmdReady := rfl
@[simp] theorem State.present_rsp : (s.present r).rsp = some r := rfl
@[simp] theorem State.present_pins : (s.present r).pins = s.pins := rfl
@[simp] theorem State.present_script : (s.present r).script = s.script := rfl
@[simp] theorem State.present_rspWait : (s.present r).rspWait = s.rspWait := rfl
@[simp] theorem State.present_cmdWait : (s.present r).cmdWait = s.cmdWait := rfl
@[simp] theorem State.present_cycle : (s.present r).cycle = s.cycle := rfl

/-! `State.waitCycle` -/

@[simp] theorem State.waitCycle_pend : s.waitCycle.pend = s.pend := by unfold State.waitCycle; split <;> rfl
@[simp] theorem State.waitCycle_cmdReady : s.waitCycle.cmdReady = s.cmdReady := by unfold State.waitCycle; split <;> rfl
@[simp] theorem State.waitCycle_rsp : s.waitCycle.rsp = s.rsp := by unfold State.waitCycle; split <;> rfl
@[simp] theorem State.waitCycle_pins : s.waitCycle.pins = s.pins := by unfold State.waitCycle; split <;> rfl
@[simp] theorem State.waitCycle_script : s.waitCycle.script = s.script := by unfold State.waitCycle; split <;> rfl
@[simp] theorem State.waitCycle_cmdWait : s.waitCycle.cmdWait = s.cmdWait := by unfold State.waitCycle; split <;> rfl
@[simp] theorem State.waitCycle_cycle : s.waitCycle.cycle = s.cycle := by unfold State.waitCycle; split <;> rfl

theorem State.waitCycle_rspWait :
    s.waitCycle.rspWait = if s.rsp.isNone && !s.pend.isEmpty then s.rspWait - 1 else s.rspWait := by
  unfold State.waitCycle; split <;> rfl

/-! `State.afterEdge` -/

@[simp] theorem State.afterEdge_pend : s.afterEdge.pend = s.pendAfterEdge := rfl
@[simp] theorem State.afterEdge_cmdReady : s.afterEdge.cmdReady = s.readyAfterEdge := rfl
@[simp] theorem State.afterEdge_rsp :
    s.afterEdge.rsp = if s.pins.rst || s.rspTransfers then none else s.rsp := rfl
@[simp] theorem State.afterEdge_pins : s.afterEdge.pins = s.script.headD s.pins := rfl
@[simp] theorem State.afterEdge_script : s.afterEdge.script = s.script.tail := rfl
@[simp] theorem State.afterEdge_rspWait : s.afterEdge.rspWait =
    if s.headArrives then Config.rspDelay s.cycle s.pendAfterEdge else if s.pins.rst then 0 else s.rspWait := rfl
@[simp] theorem State.afterEdge_cmdWait : s.afterEdge.cmdWait = s.pauseAfterEdge := rfl
@[simp] theorem State.afterEdge_cycle : s.afterEdge.cycle = s.cycle + 1 := rfl

/-! `State.placeHead` -/

@[simp] theorem State.placeHead_pend : (s.placeHead p).pend = p.toCommand :: s.pend.tail := rfl
@[simp] theorem State.placeHead_cmdReady : (s.placeHead p).cmdReady = false := rfl
@[simp] theorem State.placeHead_rsp : (s.placeHead p).rsp = none := rfl
@[simp] theorem State.placeHead_pins : (s.placeHead p).pins = { s.pins with rst := false } := rfl
@[simp] theorem State.placeHead_script : (s.placeHead p).script = s.script := rfl
@[simp] theorem State.placeHead_rspWait : (s.placeHead p).rspWait = 0 := rfl
@[simp] theorem State.placeHead_cmdWait : (s.placeHead p).cmdWait = s.cmdWait := rfl
@[simp] theorem State.placeHead_cycle : (s.placeHead p).cycle = s.cycle := rfl

/-! `State.reset` -/

@[simp] theorem State.reset_pend : State.reset.pend = [] := rfl
@[simp] theorem State.reset_cmdReady : State.reset.cmdReady = false := rfl
@[simp] theorem State.reset_rsp : State.reset.rsp = none := rfl

end Sys2Proof.Machine
end

