-- ==== Sys2Proof/Laws/Ops.lean ====
section
/-! SUPPORT. What each shared operation of the machine can do, once. -/

namespace Sys2Proof.Machine

/-- `respond` presents the outcome, or stops on a zero divisor; nothing else. -/
theorem respond_next_iff {tag : BitVec 8} {o : Option Result} {s t : State} :
    respond tag o s = .next t ↔ ∃ r, o = some r ∧ t = s.present (r.toResponse tag) := by
  cases o <;> simp [respond, eq_comm]

@[simp] theorem respond_some (tag : BitVec 8) (r : Result) (s : State) :
    respond tag (some r) s = .next (s.present (r.toResponse tag)) := rfl

@[simp] theorem respond_none (tag : BitVec 8) (s : State) : respond tag none s = .fault .zeroDivisor := rfl

@[simp] theorem Result.toResponse_tag (tag : BitVec 8) (r : Result) : (r.toResponse tag).tag = tag := by
  cases r <;> rfl

/-- The drawn delay is below LAT_MAX. -/
theorem rspDelay_lt (n : Nat) (ks : List Command) : Config.rspDelay n ks < Config.latMax := Nat.mod_lt _ (Nat.succ_pos _)

/-- The drawn pause is below LAT_MAX. -/
theorem cmdPause_lt (n : Nat) (ks : List Command) : Config.cmdPause n ks < Config.latMax := Nat.mod_lt _ (Nat.succ_pos _)

/-- The machine takes exactly the head of PEND, with no response held and no delay left. -/
theorem headToAnswer_eq_some_iff {s : State} {k : Command} :
    s.headToAnswer = some k ↔ s.rsp = none ∧ s.rspWait = 0 ∧ ∃ ks, s.pend = k :: ks := by
  unfold State.headToAnswer
  split
  · rename_i h1 h2 h3
    simp [h1, h2, h3]
  · rename_i h
    constructor
    · intro h'
      cases h'
    · rintro ⟨h1, h2, ks, h3⟩
      exact absurd h2 (h _ _ h1 h3)

/-- PEND after an edge without reset: the head leaves if a response transfers, the captured command joins the end if a
command transfers (R45). -/
theorem pendAfterEdge_of_noReset {s : State} (h : s.pins.rst = false) :
    s.pendAfterEdge = (if s.rspTransfers then s.pend.tail else s.pend) ++
      (if s.cmdTransfers then [s.pins.cmd.toCommand] else []) := by
  simp only [State.pendAfterEdge, h, Bool.false_eq_true, if_false]
  by_cases hc : s.cmdTransfers = true <;> simp [hc]

theorem pendAfterEdge_of_reset {s : State} (h : s.pins.rst = true) : s.pendAfterEdge = [] := by
  simp [State.pendAfterEdge, h]

/-- The countdown of `cmd_ready` stays below LAT_MAX. -/
theorem pauseAfterEdge_lt {s : State} (h : s.cmdWait < Config.latMax) : s.pauseAfterEdge < Config.latMax := by
  unfold State.pauseAfterEdge
  split
  · exact cmdPause_lt ..
  · split <;> omega

end Sys2Proof.Machine
end

