-- ==== Sys2Proof/Laws/PerInstr.lean ====
section
/-! SUPPORT. The family LegalPacket: the packet an instruction is encoded to is a legal command (30_encoding.md R88)
that carries the instruction's tag (R86). One lemma per constructor. -/

namespace Sys2Proof.Laws.LegalPacket

/-- The encoding of `i` is legal and carries its tag. -/
def Statement (i : Instr) : Prop :=
  (encode i).toCommand.legal = true ∧ (encode i).toCommand.tag = i.tag

theorem avgu (tag : BitVec 8) (x y : Word) : Statement (.avgu tag x y) := by
  simp [Statement, encode, toCommand_commandWord, Instr.tag]; rfl
theorem avgs (tag : BitVec 8) (x y : Word) : Statement (.avgs tag x y) := by
  simp [Statement, encode, toCommand_commandWord, Instr.tag]; rfl
theorem ceildiv (tag : BitVec 8) (x y : Word) : Statement (.ceildiv tag x y) := by
  simp [Statement, encode, toCommand_commandWord, Instr.tag]; rfl
theorem isneg (tag : BitVec 8) (x : Word) : Statement (.isneg tag x) := by
  simp [Statement, encode, toCommand_commandWord, Instr.tag]; rfl
theorem muldiv (tag : BitVec 8) (up : Bool) (x y d : Word) : Statement (.muldiv tag up x y d) := by
  cases up <;> simp [Statement, encode, toCommand_commandWord, Instr.tag] <;> rfl
theorem log2 (tag : BitVec 8) (up : Bool) (x : Word) : Statement (.log2 tag up x) := by
  cases up <;> simp [Statement, encode, toCommand_commandWord, Instr.tag] <;> rfl
theorem log10 (tag : BitVec 8) (up : Bool) (x : Word) : Statement (.log10 tag up x) := by
  cases up <;> simp [Statement, encode, toCommand_commandWord, Instr.tag] <;> rfl
theorem log256 (tag : BitVec 8) (up : Bool) (x : Word) : Statement (.log256 tag up x) := by
  cases up <;> simp [Statement, encode, toCommand_commandWord, Instr.tag] <;> rfl
theorem wadln (tag : BitVec 8) (x : Word) : Statement (.wadln tag x) := by
  simp [Statement, encode, toCommand_commandWord, Instr.tag]; rfl
theorem wadexp (tag : BitVec 8) (x : Word) : Statement (.wadexp tag x) := by
  simp [Statement, encode, toCommand_commandWord, Instr.tag]; rfl
theorem cbrt (tag : BitVec 8) (up : Bool) (x : Word) : Statement (.cbrt tag up x) := by
  cases up <;> simp [Statement, encode, toCommand_commandWord, Instr.tag] <;> rfl
theorem wadcbrt (tag : BitVec 8) (x : Word) : Statement (.wadcbrt tag x) := by
  simp [Statement, encode, toCommand_commandWord, Instr.tag]; rfl

end Sys2Proof.Laws.LegalPacket
end

