-- ==== Sys2Proof/Laws/Step.lean ====
section
/-! SUPPORT. What an instruction and a step can do, once. -/

namespace Sys2Proof.Machine

/-- Every instruction ends in one outcome that does not look at the state, presented with its tag. -/
theorem exec_eq_respond (i : Instr) : ∃ o, ∀ s, exec i s = respond i.tag o s := by
  cases i with
  | avgu tag x y => exact ⟨some (avgu x y), fun _ => rfl⟩
  | avgs tag x y => exact ⟨some (avgs (s256 x) (s256 y)), fun _ => rfl⟩
  | ceildiv tag x y => exact ⟨some (ceildiv x.toNat y.toNat), fun _ => rfl⟩
  | isneg tag x => exact ⟨some (isneg (s256 x)), fun _ => rfl⟩
  | muldiv tag up x y d => exact ⟨some (muldiv x y d up), fun _ => rfl⟩
  | log2 tag up x => exact ⟨some (.ok (u256 (log2Probe x up)) 0), fun _ => rfl⟩
  | log10 tag up x => exact ⟨some (.ok (u256 (log10Probe x up)) 0), fun _ => rfl⟩
  | log256 tag up x => exact ⟨some (.ok (u256 (log256Probe x up)) 0), fun _ => rfl⟩
  | wadln tag x => exact ⟨wadLn lnConst (s256 x), fun _ => rfl⟩
  | wadexp tag x => exact ⟨wadExp expConst (s256 x), fun _ => rfl⟩
  | cbrt tag up x => exact ⟨rootResult (cbrt x up), fun _ => rfl⟩
  | wadcbrt tag x => exact ⟨rootResult (wadCbrt x), fun _ => rfl⟩

/-- Answering a command, legal or not, ends in one outcome that does not look at the state. -/
theorem answer_eq_respond (k : Command) : ∃ tag o, ∀ s, answer k s = respond tag o s := by
  unfold answer
  split
  · rename_i i _
    obtain ⟨o, h⟩ := exec_eq_respond i
    exact ⟨_, o, h⟩
  · exact ⟨_, _, fun _ => rfl⟩

/-- If answering a command goes on, it presents `Exec` of that command and changes nothing else. -/
theorem answer_next {k : Command} {s t : State} (h : answer k s = .next t) :
    ∃ r, responseTo k = some r ∧ t = s.present r := by
  obtain ⟨tag, o, ho⟩ := answer_eq_respond k
  rw [ho, respond_next_iff] at h
  obtain ⟨r, rfl, rfl⟩ := h
  exact ⟨_, by simp [responseTo, ho], rfl⟩

/-- The two things a step that goes on can do after the edge: present `Exec` of the head of PEND, or wait. -/
theorem step_cases {s t : State} (h : step s = .next t) :
    (∃ k r, s.afterEdge.headToAnswer = some k ∧ responseTo k = some r ∧ t = s.afterEdge.present r) ∨
    (s.afterEdge.headToAnswer = none ∧ t = s.afterEdge.waitCycle) := by
  unfold step at h
  split at h
  · rename_i k hk
    obtain ⟨r, hr, rfl⟩ := answer_next h
    exact .inl ⟨k, r, hk, hr, rfl⟩
  · rename_i hk
    cases h
    exact .inr ⟨hk, rfl⟩

/-- The fields no part of a step after the edge touches. -/
theorem step_next_frame {s t : State} (h : step s = .next t) :
    t.pend = s.pendAfterEdge ∧ t.cmdReady = s.readyAfterEdge ∧ t.pins = s.script.headD s.pins ∧
      t.script = s.script.tail ∧ t.cmdWait = s.pauseAfterEdge ∧ t.cycle = s.cycle + 1 := by
  obtain ⟨_, _, _, _, rfl⟩ | ⟨_, rfl⟩ := step_cases h <;> simp

@[simp] theorem runSteps_zero (s : State) : runSteps 0 s = .next s := rfl

theorem runSteps_succ (n : Nat) (s : State) :
    runSteps (n + 1) s = match step s with
      | .next t => runSteps n t
      | .fault e => .fault e
      | .refused e => .refused e := by
  cases h : step s <;> simp [runSteps, Host.Core.run, Sys2Proof.core, h]

end Sys2Proof.Machine
end

