-- ==== Sys2Proof/Laws/Word.lean ====
section
/-! SUPPORT. The laws of the arithmetic notation (Machine/Operands.lean): what each operation is on the value it stands
for, and when a wrapping operation is exact. -/

namespace Sys2Proof.Machine

@[simp] theorem u256_s256 (w : Word) : u256 (s256 w) = w := BitVec.ofInt_toInt

theorem s256_ge (w : Word) : minS ≤ s256 w := by
  have h : -(2 ^ 255 : Int) ≤ w.toInt := BitVec.le_toInt w
  exact h

theorem s256_le (w : Word) : s256 w ≤ maxS := by
  have h : w.toInt < (2 ^ 255 : Int) := BitVec.toInt_lt
  exact Int.le_sub_one_of_lt h

theorem s256_u256_of_inRange {z : Int} (hlo : minS ≤ z) (hhi : z ≤ maxS) : s256 (u256 z) = z := by
  simp only [minS, maxS] at hlo hhi
  simp only [s256, u256, BitVec.toInt_ofInt]
  exact Int.bmod_eq_of_le (by norm_num; omega) (by norm_num; omega)

theorem u256_natCast_toNat (n : Nat) : (u256 n).toNat = n % 2 ^ 256 := by
  simp [u256]

theorem u256_natCast_toNat_of_lt {n : Nat} (h : n < 2 ^ 256) : (u256 n).toNat = n := by
  rw [u256_natCast_toNat, Nat.mod_eq_of_lt h]

theorem u256_natCast (n : Nat) : u256 n = BitVec.ofNat 256 n := by
  apply BitVec.eq_of_toNat_eq
  rw [u256_natCast_toNat, BitVec.toNat_ofNat]

@[simp] theorem u256_toNat (w : Word) : u256 w.toNat = w := by
  rw [u256_natCast, BitVec.ofNat_toNat, BitVec.setWidth_eq]

/-- A non-negative integer below 2^256 is carried as itself. -/
theorem u256_toNat_of_nonneg {z : Int} (h0 : 0 ≤ z) (h : z < 2 ^ 256) : ((u256 z).toNat : Int) = z := by
  obtain ⟨n, rfl⟩ := Int.eq_ofNat_of_zero_le h0
  rw [u256_natCast_toNat_of_lt (by exact_mod_cast h)]

theorem s256_nonneg_iff (w : Word) : 0 ≤ s256 w ↔ w.toNat < 2 ^ 255 := by
  have hw := w.isLt
  simp only [s256, BitVec.toInt_eq_toNat_cond]
  split
  · exact ⟨fun _ => by omega, fun _ => by omega⟩
  · refine ⟨fun h => ?_, fun h => by omega⟩
    have : (w.toNat : Int) < (2 ^ 256 : Nat) := by exact_mod_cast hw
    omega

/-- A pattern whose top bit is clear is the same number in both readings. -/
theorem s256_eq_toNat {w : Word} (h : w.toNat < 2 ^ 255) : s256 w = w.toNat := by
  simp only [s256, BitVec.toInt_eq_toNat_cond]
  rw [if_pos (by omega)]

@[simp] theorem addW_eq (a b : Word) : addW a b = a + b := by
  apply BitVec.eq_of_toNat_eq
  rw [addW, ← Nat.cast_add, u256_natCast_toNat, BitVec.toNat_add]

@[simp] theorem mulW_eq (a b : Word) : mulW a b = a * b := by
  apply BitVec.eq_of_toNat_eq
  rw [mulW, ← Nat.cast_mul, u256_natCast_toNat, BitVec.toNat_mul]

@[simp] theorem subW_eq (a b : Word) : subW a b = a - b := by
  have h : b + subW a b = a := by
    apply BitVec.eq_of_toInt_eq
    have hb : ((b.toNat : Int)).bmod (2 ^ 256) = b.toInt := (BitVec.toInt_eq_toNat_bmod b).symm
    have ha : ((a.toNat : Int)).bmod (2 ^ 256) = a.toInt := (BitVec.toInt_eq_toNat_bmod a).symm
    rw [BitVec.toInt_add, subW, u256, BitVec.toInt_ofInt, Int.add_bmod_bmod, ← hb, Int.bmod_add_bmod,
      add_sub_cancel, ha]
  exact eq_sub_of_add_eq' h

theorem addS_exact {a b : Int} (hlo : minS ≤ a + b) (hhi : a + b ≤ maxS) : addS a b = a + b :=
  s256_u256_of_inRange hlo hhi

theorem subS_exact {a b : Int} (hlo : minS ≤ a - b) (hhi : a - b ≤ maxS) : subS a b = a - b :=
  s256_u256_of_inRange hlo hhi

theorem mulS_exact {a b : Int} (hlo : minS ≤ a * b) (hhi : a * b ≤ maxS) : mulS a b = a * b :=
  s256_u256_of_inRange hlo hhi

@[simp] theorem shl_toNat (w : Word) (n : Nat) : (shl w n).toNat = w.toNat * 2 ^ n % 2 ^ 256 := by
  simp [shl, BitVec.toNat_shiftLeft, Nat.shiftLeft_eq]

@[simp] theorem shr_toNat (w : Word) (n : Nat) : (shr w n).toNat = w.toNat / 2 ^ n := by
  simp [shr, BitVec.toNat_ushiftRight, Nat.shiftRight_eq_div_pow]

theorem sar_def (s : Int) (n : Nat) : sar s n = s / 2 ^ n := by
  simp [sar]

@[simp] theorem udiv_zero (a : Nat) : udiv a 0 = none := rfl

theorem udiv_of_pos {a b : Nat} (h : 0 < b) : udiv a b = some (a / b) := by
  simp [udiv, Nat.pos_iff_ne_zero.mp h]

@[simp] theorem sdiv_zero (a : Int) : sdiv a 0 = none := rfl

theorem sdiv_of_ne_zero {a b : Int} (h : b ≠ 0) : sdiv a b = some (s256 (u256 (a.tdiv b))) := by
  simp [sdiv, h]

@[simp] theorem boolToWord_toNat (b : Bool) : (boolToWord b).toNat = b.toNat := by
  cases b <;> rfl

end Sys2Proof.Machine
end

