-- ==== Sys2Proof/Laws/Units.lean ====
section
/-! SUPPORT. What the shared stages of the operations compute: the log2Floor search (R140), a Horner step in 2^96 fixed
point (R163), and a cube-root refinement (R202). -/

namespace Sys2Proof.Machine

/-! ## log2Floor -/

/-- Where a shift search for the exponent of `x` stands: the result so far is `vr.2`, and the rest has fewer than
`n` bits. -/
def SearchAt (x n : Nat) (vr : Word × Nat) : Prop :=
  vr.1.toNat = x / 2 ^ vr.2 ∧ vr.1.toNat < 2 ^ n ∧ (x ≠ 0 → vr.1.toNat ≠ 0)

/-- A probe of `b` bits halves the width that is left. -/
theorem shiftProbe_search {x b : Nat} {vr : Word × Nat} (h : SearchAt x (b + b) vr) :
    SearchAt x b (shiftProbe vr (b, b)) := by
  obtain ⟨h1, h2, h3⟩ := h
  have hz : shr vr.1 b ≠ 0 ↔ vr.1.toNat / 2 ^ b ≠ 0 := by
    rw [not_iff_not, ← BitVec.toNat_inj, shr_toNat]
    rfl
  unfold shiftProbe
  split
  · rename_i hne
    refine ⟨?_, ?_, fun _ => ?_⟩
    · simp only [shr_toNat]
      rw [h1, Nat.div_div_eq_div_mul, ← pow_add]
    · rw [shr_toNat]
      exact Nat.div_lt_of_lt_mul (by rwa [← pow_add])
    · simpa [shr_toNat] using hz.mp hne
  · rename_i he
    rw [hz, not_not] at he
    exact ⟨h1, (Nat.div_eq_zero_iff_lt (by positivity)).mp he, h3⟩

/-- The search of R140 finds the index of the most significant set bit, and 0 for 0. -/
theorem log2Floor_eq_log (x : Word) : log2Floor x = Nat.log 2 x.toNat := by
  by_cases hx : x.toNat = 0
  · obtain rfl : x = 0 := BitVec.eq_of_toNat_eq (by simpa using hx)
    decide
  have h0 : SearchAt x.toNat (128 + 128) (x, 0) := ⟨by simp, x.isLt, id⟩
  have h := shiftProbe_search (b := 1) <| shiftProbe_search (b := 2) <| shiftProbe_search (b := 4) <|
    shiftProbe_search (b := 8) <| shiftProbe_search (b := 16) <| shiftProbe_search (b := 32) <|
    shiftProbe_search (b := 64) <| shiftProbe_search (b := 128) h0
  change SearchAt x.toNat 1 ([(128, 128), (64, 64), (32, 32), (16, 16), (8, 8), (4, 4), (2, 2), (1, 1)].foldl
    shiftProbe (x, 0)) at h
  unfold log2Floor
  generalize [(128, 128), (64, 64), (32, 32), (16, 16), (8, 8), (4, 4), (2, 2), (1, 1)].foldl shiftProbe (x, 0) = vr at h
  obtain ⟨h1, h2, h3⟩ := h
  have hone : x.toNat / 2 ^ vr.2 = 1 := by have := h3 hx; omega
  symm
  rw [Nat.log_eq_iff (.inr ⟨by omega, hx⟩), pow_succ]
  have hsplit := Nat.div_add_mod x.toNat (2 ^ vr.2)
  have hrest := Nat.mod_lt x.toNat (show 0 < 2 ^ vr.2 by positivity)
  rw [hone, mul_one] at hsplit
  omega

/-! ## Horner steps -/

/-- On an interval, a Horner step of R163 does not wrap, and stays within `B` of the coefficient it adds. -/
theorem hornerStep_bounds {v acc c A V B : Int} (hv : |v| ≤ V) (hacc : |acc| ≤ A) (hB : A * V ≤ B * 2 ^ 96)
    (hfit : A * V ≤ maxS) (hlo : minS ≤ c - B) (hhi : c + B ≤ maxS) :
    hornerStep v acc c = acc * v / 2 ^ 96 + c ∧ c - B ≤ hornerStep v acc c ∧ hornerStep v acc c ≤ c + B := by
  have hprod : |acc * v| ≤ A * V := by
    rw [abs_mul]
    exact mul_le_mul hacc hv (abs_nonneg _) ((abs_nonneg _).trans hacc)
  obtain ⟨h1, h2⟩ := abs_le.mp hprod
  have hmul : mulS acc v = acc * v := mulS_exact (by unfold minS; unfold maxS at hfit; omega) (by omega)
  have heq : hornerStep v acc c = acc * v / 2 ^ 96 + c := by
    rw [hornerStep, hmul, sar_def, addS_exact] <;> omega
  rw [heq]
  refine ⟨rfl, ?_, ?_⟩ <;> omega

/-! ## Cube-root refinements -/

/-- With a positive root a refinement has a divisor, and gives a positive root again (R203). -/
theorem newtonStep_of_pos {value y : Nat} (hy : 0 < y) (hv : 0 < value) :
    newtonStep value y = some (newtonExact value y) ∧ 0 < newtonExact value y := by
  refine ⟨by simp [newtonStep, udiv_of_pos (Nat.mul_pos hy hy), newtonExact], ?_⟩
  unfold newtonExact
  rcases Nat.lt_or_ge 1 y with h | h
  · exact Nat.div_pos ((show 3 ≤ 2 * y by omega).trans (Nat.le_add_right _ _)) (by norm_num)
  · obtain rfl : y = 1 := by omega
    simp only [mul_one, Nat.div_one]
    omega

end Sys2Proof.Machine
end

