-- ==== Sys2Proof/Tests/Slice0.lean ====
section
/-! SUPPORT. The model's own tests: the well-formedness smoke test, words written out from the spec's encodings, single
steps with the spec's vectors (spec/95_test_vectors.md), and a witness for the hypotheses of every statement that has some. -/

-- Without this, the kernel evaluations below would all start at once, each in a thread of its own.
set_option Elab.async false

namespace Sys2Proof.Tests

open Sys2Proof.Machine

/-- The response an outcome presents. -/
def rspOf : StepOutcome → Option Response
  | .next t => t.rsp
  | .fault _ => none
  | .refused _ => none

/-- The response of an instruction in the reset state. -/
def run (i : Instr) : Option Response := rspOf (exec i State.reset)

/-- A number as a word. -/
def W (n : Nat) : Word := BitVec.ofNat 256 n

/-- A successful response with tag 0 and AUX 0. -/
def okay (z : Int) : Option Response := some ⟨.ok, 0, u256 z, 0⟩

/-- A failed response with tag 0. -/
def failed (e : Status) : Option Response := some ⟨e, 0, 0, 0⟩

/-! ## Well-formedness: an ill-formed command for each check of R88, and legal ones -/

theorem test_reservedBit_refused : (Packet.toCommand ⟨0x01000000, 0, 0, 0⟩).reservedClear = false := by decide
theorem test_reservedOpcode_refused : (Packet.toCommand ⟨0x0000000C, 0, 0, 0⟩).opAssigned = false := by decide
theorem test_roundUpOnAvgu_refused : (Packet.toCommand ⟨0x00000100, 1, 2, 0⟩).roundUpAllowed = false := by decide
theorem test_illFormed_not_legal :
    ∀ w ∈ [0x0000000C, 0x0000001F, 0x00000100, 0x00000108, 0x00000109, 0x0000010B, 0x00000020, 0x00000200, 0x01000000,
      0x80FF0105], (Packet.toCommand ⟨BitVec.ofNat 32 w, 0, 0, 0⟩).legal = false := by decide
theorem test_wellFormed_legal :
    ∀ w ∈ [0x00FF0004, 0x00000106, 0x0000010A, 0x00000000],
      (Packet.toCommand ⟨BitVec.ofNat 32 w, 0, 0, 0⟩).legal = true := by decide

/-! ## Decoding: each constructor's word from R81 and R84, tag 0x5A, fields `RSV2 TAG RSV1 RND RSV0 OP` -/

theorem test_decode_avgu :
    decodePacket ⟨0b00000000010110100000000000000000, 7, 8, 9⟩ = .ok (.avgu 0x5A 7 8) := by rfl
theorem test_decode_avgs :
    decodePacket ⟨0b00000000010110100000000000000001, 7, 8, 9⟩ = .ok (.avgs 0x5A 7 8) := by rfl
theorem test_decode_ceildiv :
    decodePacket ⟨0b00000000010110100000000000000010, 7, 8, 9⟩ = .ok (.ceildiv 0x5A 7 8) := by rfl
theorem test_decode_isneg :
    decodePacket ⟨0b00000000010110100000000000000011, 7, 8, 9⟩ = .ok (.isneg 0x5A 7) := by rfl
theorem test_decode_muldiv :
    decodePacket ⟨0b00000000010110100000000000000100, 7, 8, 9⟩ = .ok (.muldiv 0x5A false 7 8 9) := by rfl
theorem test_decode_muldivUp :
    decodePacket ⟨0b00000000010110100000000100000100, 7, 8, 9⟩ = .ok (.muldiv 0x5A true 7 8 9) := by rfl
theorem test_decode_log2Up :
    decodePacket ⟨0b00000000010110100000000100000101, 7, 8, 9⟩ = .ok (.log2 0x5A true 7) := by rfl
theorem test_decode_log10 :
    decodePacket ⟨0b00000000010110100000000000000110, 7, 8, 9⟩ = .ok (.log10 0x5A false 7) := by rfl
theorem test_decode_log256Up :
    decodePacket ⟨0b00000000010110100000000100000111, 7, 8, 9⟩ = .ok (.log256 0x5A true 7) := by rfl
theorem test_decode_wadln :
    decodePacket ⟨0b00000000010110100000000000001000, 7, 8, 9⟩ = .ok (.wadln 0x5A 7) := by rfl
theorem test_decode_wadexp :
    decodePacket ⟨0b00000000010110100000000000001001, 7, 8, 9⟩ = .ok (.wadexp 0x5A 7) := by rfl
theorem test_decode_cbrtUp :
    decodePacket ⟨0b00000000010110100000000100001010, 7, 8, 9⟩ = .ok (.cbrt 0x5A true 7) := by rfl
theorem test_decode_wadcbrt :
    decodePacket ⟨0b00000000010110100000000000001011, 7, 8, 9⟩ = .ok (.wadcbrt 0x5A 7) := by rfl

theorem test_decode_reservedBits : decodePacket ⟨0x80FF0105, 9, 0, 0⟩ = .error .reservedBits := by rfl
theorem test_decode_reservedOpcode : decodePacket ⟨0x0000001F, 0, 0, 0⟩ = .error .reservedOpcode := by rfl
theorem test_decode_roundUpNotAllowed : decodePacket ⟨0x00000108, 0, 0, 0⟩ = .error .roundUpNotAllowed := by rfl

/-- The host's numbering: the operands are the bits above the command word's 32. -/
theorem test_decodeTableWord : decodeTableWord 32 0x00FF0104 = some (.muldiv 0xFF true 0 0 0) := by decide

/-! ## Instructions, with the vectors of 95_test_vectors.md -/

theorem test_avgu_max : run (.avgu 0 (W maxW) (W (maxW - 1))) = okay (maxW - 1) := by decide +kernel
theorem test_avgu_x1 : run (.avgu 0 83219 219713) = okay 151466 := by decide +kernel
theorem test_avgs_x3 : run (.avgs 0 (u256 minS) (u256 maxS)) = okay (-1) := by decide +kernel
theorem test_avgs_mixedSigns : run (.avgs 0 (u256 (-5)) 2) = okay (-2) := by decide +kernel
theorem test_ceildiv_zeroByZero : run (.ceildiv 0 0 0) = failed .divByZero := by decide +kernel
theorem test_ceildiv_max : run (.ceildiv 0 (W maxW) 1) = okay maxW := by decide +kernel
theorem test_isneg_min : run (.isneg 0 (u256 minS)) = okay 1 := by decide +kernel
theorem test_isneg_max : run (.isneg 0 (u256 maxS)) = okay 0 := by decide +kernel
theorem test_muldiv_wideUp : run (.muldiv 0 true (W (2 ^ 128)) (W (2 ^ 128)) (W maxW)) = some ⟨.ok, 0, 2, 1⟩ := by
  decide +kernel
theorem test_muldiv_roundUpPastMax : run (.muldiv 0 true (W 618298780995040089266257453058982480847)
    (W 374550598501810936581776630096313181393) 2) = failed .overflow := by decide +kernel
theorem test_log2_max : run (.log2 0 true (W maxW)) = okay 256 := by decide +kernel
theorem test_log2_three : run (.log2 0 false 3) = okay 1 := by decide +kernel
theorem test_log10_belowPower : run (.log10 0 false (W (10 ^ 77 - 1))) = okay 76 := by decide +kernel
theorem test_log10_maxUp : run (.log10 0 true (W maxW)) = okay 78 := by decide +kernel
theorem test_log256_257Up : run (.log256 0 true 257) = okay 2 := by decide +kernel
theorem test_log256_top : run (.log256 0 false (W (2 ^ 248))) = okay 31 := by decide +kernel
theorem test_wadln_x15 : run (.wadln 0 1) = okay (-41446531673892822313) := by decide +kernel
theorem test_wadln_max : run (.wadln 0 (u256 maxS)) = okay 135305999368893231589 := by decide +kernel
theorem test_wadexp_shift256 : run (.wadexp 0 (u256 (-42139678854452767550))) = okay 0 := by decide +kernel
theorem test_wadexp_belowThreshold : run (.wadexp 0 (u256 135305999368893231588)) =
    okay 57896044618658097650144101621524338577433870140581303254786265309376407432913 := by decide +kernel
theorem test_cbrt_max : run (.cbrt 0 true (W maxW)) = okay 48740834812604276470692695 := by decide +kernel
theorem test_cbrt_upperEnd : run (.cbrt 0 false (W (2 ^ 171 - 1))) = okay (2 ^ 57) := by decide +kernel
theorem test_wadcbrt_x22 : run (.wadcbrt 0 9000000000000000000) = okay 2080083823051904114 := by decide +kernel
theorem test_wadcbrt_t2 : run (.wadcbrt 0 (W 115792089237316195423570985008687907853269)) =
    okay 48740834812604276470000000 := by decide +kernel

/-- R124, the high = 0 path with both roundings: the informative constructions agree on a wide product (R121, R123). -/
theorem test_constructions : mul512Crt (W maxW) (W maxW) = ⟨W (2 ^ 256 - 2), 1⟩ ∧
    div512Inverse (mul512 (W (2 ^ 255)) 4) 3 =
      (W 77194726158210796949047323339125271902179989777093709359638389338608753093290, 2) := by decide +kernel

/-! ## Steps -/

/-- A placed command is answered by the next step: `0x00FF0004` with A = 3, B = 4, C = 5 gives (OK, 255, 2, 2). -/
theorem test_step_placed : rspOf (step (State.reset.placeHead ⟨0x00FF0004, 3, 4, 5⟩)) = some ⟨.ok, 255, 2, 2⟩ := by
  decide +kernel

/-- `0x80FF0105`: ILLEGAL, and the TAG is still copied. -/
theorem test_step_illegal : rspOf (step (State.reset.placeHead ⟨0x80FF0105, 9, 0, 0⟩)) = some ⟨.illegal, 255, 0, 0⟩ := by
  decide +kernel

theorem test_step_fetchWord : rspOf (step (State.reset.withFetchWord 32 0x00020009)) =
    some ⟨.ok, 2, 1000000000000000000, 0⟩ := by decide +kernel

/-- Program 5, edge e4: with c1 and c2 in PEND and a response presented, reset discards both. -/
theorem test_step_reset :
    let s : State := { State.reset with
      pend := [Packet.toCommand ⟨0x00010005, 8, 0, 0⟩, Packet.toCommand ⟨0x00020005, 16, 0, 0⟩]
      rsp := some ⟨.ok, 1, 3, 0⟩
      pins := { HostPins.low with rst := true, rspReady := true } }
    s.afterEdge.pend = [] ∧ s.afterEdge.rsp = none ∧ s.afterEdge.cmdReady = false := by decide +kernel

/-- Program 1, edge e4: c3 joins PEND while c2's response is held. -/
theorem test_step_hold :
    let s : State := { State.reset with
      pend := [Packet.toCommand ⟨0x00020002, 123, 17, 0⟩]
      rsp := some ⟨.ok, 2, 8, 0⟩
      cmdReady := true
      pins := { HostPins.low with cmdValid := true, cmd := ⟨0x00030105, 9, 0, 0⟩ } }
    s.afterEdge.pend = [Packet.toCommand ⟨0x00020002, 123, 17, 0⟩, Packet.toCommand ⟨0x00030105, 9, 0, 0⟩] ∧
      rspOf (step s) = some ⟨.ok, 2, 8, 0⟩ := by decide +kernel

/-! ## The assembler, with the examples of R90 and R91 -/

theorem test_parse_muldivUp :
    parseLine "MULDIV.UP 3, 4, 5".toList = some ⟨.muldiv, true, none, [3, 4, 5]⟩ := by decide +kernel
/-- The tag's `0x` notation is the model's choice (log entry 17). -/
theorem test_parse_hexTag :
    parseLine "LOG2 #0x1F, 8".toList = some ⟨.log2, false, some 31, [8]⟩ := by decide +kernel
theorem test_parse_tag : parseLine "LOG2 #7, 8".toList = some ⟨.log2, false, some 7, [8]⟩ := by decide +kernel
theorem test_parse_negative :
    parseLine "WADEXP -1000000000000000000".toList = some ⟨.wadexp, false, none, [-1000000000000000000]⟩ := by
  decide +kernel
theorem test_parse_hex : parseLine "CBRT.DN 0xFf".toList = some ⟨.cbrt, false, none, [255]⟩ := by decide +kernel
theorem test_assemble_divu : assemble ⟨.divu, true, none, [7, 2]⟩ = .ok ⟨0x00000104, 7, 1, 2⟩ := by rfl
theorem test_assemble_avguUp : assemble ⟨.avgu, true, none, [1, 2]⟩ = .error .upNotAllowed := by rfl

/-! ## Witnesses: concrete states and operands that meet the hypotheses of each statement that has some -/

/-- `LOG2 #1, 8`. -/
def log2Of8 : Command := Packet.toCommand ⟨0x00010005, 8, 0, 0⟩

/-- The core holds the response to `LOG2 #1, 8` while the host takes nothing. -/
def held : State := { State.reset with pend := [log2Of8], rsp := some ⟨.ok, 1, 3, 0⟩ }

theorem held_inv : Inv held where
  fits := by simp [held, Config.depth]
  ready := by simp [held]
  presented := fun r h => by
    obtain rfl : (⟨.ok, 1, 3, 0⟩ : Response) = r := by simpa [held] using h
    exact ⟨log2Of8, [], rfl, by decide +kernel⟩
  rspBound := Nat.succ_pos _
  cmdBound := Nat.succ_pos _

theorem held_step : ∃ t, step held = .next t := ⟨_, rfl⟩

/-- The host takes the response at the coming edge. -/
def taken : State := { held with pins := { HostPins.low with rspReady := true } }

/-- The host offers a command while the response is held and `cmd_ready = 1`. -/
def offered : State :=
  { held with cmdReady := true, pins := { HostPins.low with cmdValid := true, cmd := ⟨0x00030105, 9, 0, 0⟩ } }

/-- A command transfers into the empty PEND at the coming edge. -/
def arriving : State :=
  { State.reset with cmdReady := true, pins := { HostPins.low with cmdValid := true, cmd := ⟨0x00030105, 9, 0, 0⟩ } }

/-- No command, no response, no offer, for as long as the wires hold. -/
def Idle (s : State) : Prop := s.pend = [] ∧ s.rsp = none ∧ s.pins = HostPins.low ∧ s.script = []

theorem idle_step {s t : State} (h : Idle s) (hs : step s = .next t) : Idle t := by
  obtain ⟨h1, h2, h3, h4⟩ := h
  have hp : s.pendAfterEdge = [] := by
    rw [pendAfterEdge_of_noReset (by rw [h3]; rfl)]
    simp [State.rspTransfers, State.cmdTransfers, h1, h2, h3, HostPins.low]
  obtain ⟨k, r, hk, -, -⟩ | ⟨-, rfl⟩ := step_cases hs
  · obtain ⟨-, -, ks, hks⟩ := headToAnswer_eq_some_iff.mp hk
    simp [hp] at hks
  · exact ⟨by simp [hp], by simp [h2], by simp [h3, h4], by simp [h4]⟩

theorem idle_run {n : Nat} : ∀ {s t : State}, Idle s → runSteps n s = .next t → Idle t := by
  induction n with
  | zero => intro s t h hs; cases hs; exact h
  | succ n ih =>
    intro s t h hs
    rw [runSteps_succ] at hs
    split at hs
    · exact ih (idle_step h ‹_›) hs
    · cases hs
    · cases hs

theorem pinsAt_low (s : State) (h : s.script = []) (n : Nat) : s.pinsAt n = s.pins := by
  cases n <;> simp [State.pinsAt, h]

theorem test_witness_DecodedPacketIsEncoding :
    (∃ i, decodePacket ⟨0x00FF0104, W maxW, W maxW, W maxW⟩ = .ok i) ∧
    (∃ i, decodePacket ⟨0x00FF0002, W maxW, W maxW, W maxW⟩ = .ok i) ∧
    (∃ i, decodePacket ⟨0x00FF000B, W maxW, W maxW, W maxW⟩ = .ok i) := ⟨⟨_, rfl⟩, ⟨_, rfl⟩, ⟨_, rfl⟩⟩

theorem test_witness_IllegalCommandAnsweredInOrder :
    (Packet.toCommand ⟨0x00000020, 0, 0, 0⟩).rsv ≠ 0 ∧ 0x0C ≤ (Packet.toCommand ⟨0x0000000C, 0, 0, 0⟩).op.toNat ∧
    ((Packet.toCommand ⟨0x0000010B, 0, 0, 0⟩).rnd = true ∧
      (Packet.toCommand ⟨0x0000010B, 0, 0, 0⟩).op.toNat ∈ [0x00, 0x01, 0x02, 0x03, 0x08, 0x09, 0x0B]) ∧
    (arriving.pins.rst = false ∧ arriving.pins.cmdValid = true ∧ arriving.cmdReady = true) := by decide

theorem test_witness_UnreadOperandsIgnored :
    log2Of8.op.toNat ≠ 0x04 ∧ log2Of8.op.toNat ∉ [0x00, 0x01, 0x02, 0x04] ∧
    (Packet.toCommand ⟨2, 0, 0, 0⟩).op.toNat ≠ 0x04 ∧
    (Packet.toCommand ⟨0x1F, 0, 0, 0⟩).op.toNat ∉ [0x00, 0x01, 0x02, 0x04] := by decide

theorem test_witness_AssemblerEmitsOnlyLegalCommands :
    AsmOp.avgu.takesUp = false ∧ ("WADEXP", AsmOp.wadexp) ∈ asmNames ∧
    (∃ p, assemble ⟨.divu, true, some 255, [maxW, minS]⟩ = .ok p) ∧
    (∃ p, assemble ⟨.wadexp, false, none, [minS]⟩ = .ok p) ∧
    (∃ p, assemble ⟨.muldiv, true, some 0, [maxW, 1, -1]⟩ = .ok p) :=
  ⟨rfl, by simp [asmNames], ⟨_, rfl⟩, ⟨_, rfl⟩, ⟨_, rfl⟩⟩

/-- Both ways in which no response is held after the edge: none was presented, and one transfers at the edge; the first
with the delay passed. -/
theorem test_witness_StepRunsDecodedInstruction :
    let s : State := { State.reset with pend := [log2Of8] }
    let s' : State := { taken with pend := [log2Of8, log2Of8] }
    (s.pins.rst = false ∧ s.pendAfterEdge = [log2Of8] ∧ s.rsp = none ∧ s.afterEdge.rspWait = 0) ∧
    (s'.pins.rst = false ∧ s'.pendAfterEdge = [log2Of8] ∧ s'.rsp ≠ none ∧ s'.rspTransfers = true) ∧
    decodeCommand log2Of8 = .ok (.log2 1 false 8) ∧
    decodePacket ⟨0x00FF000B, 1, 0, 0⟩ = .ok (.wadcbrt 0xFF 1) :=
  ⟨⟨rfl, rfl, rfl, rfl⟩, ⟨rfl, rfl, nofun, rfl⟩, rfl, rfl⟩

theorem test_witness_PendChangesOnlyByTransfers :
    (∃ t, step taken = .next t) ∧ taken.pins.rst = false ∧ taken.rspTransfers = true ∧
    (∃ t, step offered = .next t) ∧ offered.pins.rst = false ∧ offered.cmdTransfers = true :=
  ⟨⟨_, rfl⟩, rfl, rfl, ⟨_, rfl⟩, rfl, rfl⟩

/-- A reset edge with a response held and both handshakes up, and `rst` held for one edge more. -/
def resetting : State :=
  { offered with
    pins := ⟨true, true, ⟨0x00030105, 9, 0, 0⟩, true⟩
    script := [{ HostPins.low with rst := true }] }

theorem test_witness_reset_edge : resetting.pins.rst = true ∧ resetting.script ≠ [] ∧
    ({ State.reset with pins := { HostPins.low with rst := true }, script := resetting.script } : State).pins.rst = true ∧
    ∃ t, step resetting = .next t ∧ t.pins.rst = true := ⟨rfl, by simp [resetting], rfl, ⟨_, rfl, rfl⟩⟩

theorem test_witness_held_inv_step : Inv held ∧ ∃ t, step held = .next t := ⟨held_inv, held_step⟩

/-- PEND full, and the host takes a response at the coming edge. -/
theorem test_witness_PendNeverExceedsDepth :
    let s : State := { held with pend := List.replicate Config.depth log2Of8 }
    s.pend.length ≤ Config.depth ∧ (s.cmdReady = true → s.pend.length < Config.depth) ∧
    (∃ t, step s = .next t) ∧ s.pend.length = Config.depth := by
  refine ⟨by simp, by simp [held], ?_, by simp⟩
  unfold step
  split
  · rename_i k hk
    simp [headToAnswer_eq_some_iff, State.rspTransfers, held, State.reset, HostPins.low] at hk
  · exact ⟨_, rfl⟩

theorem test_witness_ResponseHeldUntilTaken :
    held.rsp = some ⟨.ok, 1, 3, 0⟩ ∧
    ∀ k, k < 3 → (held.pinsAt k).rst = false ∧ (held.pinsAt k).rspReady = false := by
  refine ⟨rfl, fun k _ => ?_⟩
  rw [pinsAt_low held rfl]
  exact ⟨rfl, rfl⟩

theorem test_witness_ResponsesInAcceptanceOrder : Inv taken ∧ taken.noReset 1 ∧ ∃ t, runSteps 1 taken = .next t := by
  refine ⟨⟨held_inv.fits, held_inv.ready, held_inv.presented, held_inv.rspBound, held_inv.cmdBound⟩, ?_, ⟨_, rfl⟩⟩
  intro k _
  rw [pinsAt_low taken rfl]
  rfl

theorem test_witness_TimingNeverChangesResponses :
    Inv taken ∧ Inv held ∧ taken.noReset 1 ∧ held.noReset 1 ∧ (∃ t, runSteps 1 taken = .next t) ∧
    (∃ t, runSteps 1 held = .next t) ∧ taken.pend = held.pend ∧ accepted 1 taken = accepted 1 held := by
  obtain ⟨h1, h2, h3⟩ := test_witness_ResponsesInAcceptanceOrder
  refine ⟨h1, held_inv, h2, fun k _ => ?_, h3, ⟨_, rfl⟩, rfl, rfl⟩
  rw [pinsAt_low held rfl]
  rfl

theorem test_witness_HeadAnsweredWithinLatMax :
    Inv arriving ∧ arriving.headArrives = true ∧ arriving.noReset Config.latMax := by
  refine ⟨⟨Nat.zero_le _, fun _ => Nat.succ_pos _, by simp [arriving, State.reset], Nat.succ_pos _, Nat.succ_pos _⟩, rfl,
    fun k _ => ?_⟩
  rw [pinsAt_low arriving rfl]
  rfl

theorem test_witness_ReadyWithinLatMaxWhileRoom :
    State.reset.cmdWait < Config.latMax ∧ State.reset.noReset Config.latMax ∧
    ∀ n t, n < Config.latMax → runSteps (n + 1) State.reset = .next t → t.pend.length < Config.depth := by
  refine ⟨Nat.succ_pos _, fun k _ => ?_, fun n t _ h => ?_⟩
  · rw [pinsAt_low State.reset rfl]
    rfl
  · rw [(idle_run ⟨rfl, rfl, rfl, rfl⟩ h).1]
    exact Nat.succ_pos _

theorem test_witness_CommandWiresIgnoredWithoutTransfer :
    let s : State := { held with script := [HostPins.low] }
    s.script ≠ [] ∧ s.cmdReady = false ∧ s.pins.cmdValid = false := ⟨by simp, rfl, rfl⟩

theorem test_witness_exec_next :
    ∀ i ∈ [Instr.avgu 0 1 2, .avgs 0 1 2, .ceildiv 0 1 0, .ceildiv 0 1 2, .isneg 0 1, .muldiv 0 true 1 2 0,
      .muldiv 0 false (W maxW) 2 1, .muldiv 0 true 3 4 5, .log2 0 true 9, .log10 0 true 9, .log256 0 true 9, .wadln 0 (u256 (-1)), .wadln 0 0,
      .wadexp 0 (u256 135305999368893231589), .wadexp 0 (u256 135305999368893231588), .cbrt 0 true 9, .wadcbrt 0 9],
    (run i).isSome = true := by decide +kernel

theorem test_witness_ZeroOutcomesAreSuccesses :
    s256 (u256 (-42139678854452767551)) ≤ -42139678854452767551 ∧ (1 : Word) ≠ 0 ∧ log2Of8.legal = true ∧
    log2Of8.op.toNat ∈ [0x00, 0x01, 0x03, 0x05, 0x06, 0x07, 0x0A, 0x0B] ∧
    responseTo log2Of8 = some ⟨.ok, 1, 3, 0⟩ := by decide +kernel

theorem test_witness_StatusCodesOfTable : 5 ≤ (5 : BitVec 4).toNat ∧ 5 ≤ (15 : BitVec 4).toNat := by decide

theorem test_witness_SignedDivisionTruncates :
    (u256 0 = 0) ∧ (u256 (-1) ≠ 0) ∧ s256 (u256 minS) = -(2 ^ 255) ∧ s256 (u256 (-1)) = -1 := by decide +kernel

theorem test_witness_CeildivIsLeastCover : (1 : Word) ≠ 0 ∧ W maxW ≠ 0 := by decide

theorem test_witness_InverseDivisionIsExact :
    (mul512 (W maxW) (W maxW)).high.toNat < (W maxW).toNat ∧ (mul512 1 1).high.toNat < (1 : Word).toNat := by
  decide +kernel

theorem test_witness_MuldivClosedForm : (1 : Word) ≠ 0 ∧ W maxW ≠ 0 := by decide

theorem test_witness_MuldivInverseLaw :
    run (.muldiv 0 false 618298780995040089266257453058982480847 374550598501810936581776630096313181393 2) =
      some ⟨.ok, 0, W maxW, 1⟩ ∧ run (.muldiv 0 false 3 4 6) = some ⟨.ok, 0, 2, 0⟩ ∧
      run (.muldiv 0 false 3 4 5) = some ⟨.ok, 0, 2, 2⟩ := by decide +kernel

theorem test_witness_OneWordProductNeverOverflows :
    (mul512 (W maxW) 1).high = 0 ∧ (1 : Word) ≠ 0 ∧ (2 : Word) ≠ 0 ∧ 2 ≤ (2 : Word).toNat := by decide +kernel

theorem test_witness_logs : IsFloorLog 2 (W maxW).toNat 255 ∧ IsFloorLog 2 (1 : Word).toNat 0 ∧
    IsFloorLog 10 (W maxW).toNat 77 ∧ IsFloorLog 10 (1 : Word).toNat 0 ∧ W maxW ≠ 0 ∧ (0 : Word).toNat ≤ (W maxW).toNat := by
  simp only [IsFloorLog]
  decide +kernel

theorem test_witness_wadln : s256 (u256 (-1)) < 0 ∧ s256 (u256 minS) < 0 ∧ s256 0 = 0 ∧ 0 < s256 1 ∧
    0 < s256 (u256 maxS) := by decide +kernel

theorem test_witness_wadexp : s256 (u256 (-42139678854452767551)) ≤ -42139678854452767551 ∧
    135305999368893231589 ≤ s256 (u256 135305999368893231589) ∧
    -42139678854452767551 < s256 (u256 (-42139678854452767550)) ∧
    s256 (u256 (-42139678854452767550)) < 135305999368893231589 ∧
    -42139678854452767551 < s256 (u256 135305999368893231588) ∧
    s256 (u256 135305999368893231588) < 135305999368893231589 := by decide +kernel

theorem test_witness_roots : (255 : Nat) ≤ 255 ∧ (1 : Word) ≠ 0 ∧ IsFloorCbrt (1 : Word).toNat 1 ∧
    IsFloorCbrt (W maxW).toNat 48740834812604276470692694 := by
  simp only [IsFloorCbrt]
  decide +kernel

end Sys2Proof.Tests
end

/-! # Every instruction completes, and the shifts (00_scope.md R7, R17)

An instruction could fail to complete only by a zero divisor inside WADLN, WADEXP, WADCBRT or CBRT. The sections on
their divisors show that no operand leads there (R166, R186, R203), and where a value is computed without wrapping they
say so; the section after them collects the outcomes of all instructions. -/

namespace Sys2Proof.Machine

/-! ## Exact operations -/

theorem u256_mul (a b : Int) : u256 (a * b) = u256 a * u256 b := BitVec.ofInt_mul a b

theorem u256_two_pow (n : Nat) : u256 (2 ^ n) = BitVec.twoPow 256 n := by
  have h : ((2 ^ n : Nat) : Int) = 2 ^ n := by push_cast; rfl
  apply BitVec.eq_of_toNat_eq
  rw [← h, u256_natCast_toNat, BitVec.toNat_twoPow]

/-- A left shift of a pattern multiplies the integer it carries by a power of two, modulo `2^256` (R17). -/
theorem shl_u256 (z : Int) (n : Nat) : shl (u256 z) n = u256 (z * 2 ^ n) := by
  rw [u256_mul, u256_two_pow, shl, BitVec.shiftLeft_eq_mul_twoPow]

theorem s256_shl_u256_exact {z : Int} {n : Nat} (hlo : minS ≤ z * 2 ^ n) (hhi : z * 2 ^ n ≤ maxS) :
    s256 (shl (u256 z) n) = z * 2 ^ n := by
  rw [shl_u256, s256_u256_of_inRange hlo hhi]

theorem sdiv_exact {a b : Int} (hb : b ≠ 0) (hlo : minS ≤ a.tdiv b) (hhi : a.tdiv b ≤ maxS) :
    sdiv a b = some (a.tdiv b) := by
  rw [sdiv_of_ne_zero hb, s256_u256_of_inRange hlo hhi]

/-- A truncated quotient by a positive divisor, times the divisor, is less than one divisor away from the dividend. -/
theorem tdiv_bracket (a : Int) {b : Int} (hb : 0 < b) : a - b < b * a.tdiv b ∧ b * a.tdiv b < a + b := by
  have hsplit := Int.mul_tdiv_add_tmod a b
  have hlt := Int.tmod_lt_of_pos a hb
  have hgt := Int.lt_tmod_of_pos a hb
  omega

theorem sar_bracket (s : Int) (n : Nat) : 2 ^ n * sar s n ≤ s ∧ s < 2 ^ n * sar s n + 2 ^ n := by
  have hpos : (0 : Int) < 2 ^ n := by positivity
  rw [sar_def]
  exact ⟨Int.mul_ediv_self_le hpos.ne', Int.lt_mul_ediv_self_add hpos⟩

/-! ## The divisor of WADLN -/

/-- The normalized operand has its most significant set bit at bit 96 (R161). -/
theorem lnNormalize_range {x : Word} (hx : 0 < s256 x) :
    2 ^ 96 ≤ lnNormalize (s256 x) (lnExponent (s256 x)) ∧ lnNormalize (s256 x) (lnExponent (s256 x)) < 2 ^ 97 := by
  have hlt : x.toNat < 2 ^ 255 := (s256_nonneg_iff x).mp hx.le
  have hne : x.toNat ≠ 0 := by
    have := s256_eq_toNat hlt
    omega
  have hl : Nat.log 2 x.toNat < 255 := Nat.log_lt_of_lt_pow hne hlt
  have hamount : (159 - lnExponent (s256 x)).toNat = 255 - Nat.log 2 x.toNat := by
    rw [lnExponent, u256_s256, log2Floor_eq_log]
    omega
  have hpow : 2 ^ Nat.log 2 x.toNat * 2 ^ (255 - Nat.log 2 x.toNat) = 2 ^ 255 := by
    rw [← pow_add, Nat.add_sub_cancel' hl.le]
  have hlow : 2 ^ 255 ≤ x.toNat * 2 ^ (255 - Nat.log 2 x.toNat) :=
    hpow ▸ Nat.mul_le_mul_right _ (Nat.pow_log_le_self 2 hne)
  have hhigh : x.toNat * 2 ^ (255 - Nat.log 2 x.toNat) < 2 ^ 256 := by
    calc x.toNat * 2 ^ (255 - Nat.log 2 x.toNat)
        < 2 ^ (Nat.log 2 x.toNat + 1) * 2 ^ (255 - Nat.log 2 x.toNat) :=
          Nat.mul_lt_mul_of_pos_right (Nat.lt_pow_succ_log_self (by norm_num) _) (by positivity)
      _ = 2 ^ 256 := by rw [pow_succ, mul_right_comm, hpow, ← pow_succ]
  have hvalue : (shr (shl x (255 - Nat.log 2 x.toNat)) 159).toNat =
      x.toNat * 2 ^ (255 - Nat.log 2 x.toNat) / 2 ^ 159 := by
    rw [shr_toNat, shl_toNat, Nat.mod_eq_of_lt hhigh]
  rw [lnNormalize, u256_s256, hamount, s256_eq_toNat (by omega), hvalue]
  omega

/-- For a non-negative argument below `2^97` a Horner step at most doubles the accumulator, and keeps it positive. -/
theorem hornerStep_pos {v acc c : Int} {m : Nat} (hv : 0 ≤ v ∧ v ≤ 2 ^ 97) (hacc : 0 < acc ∧ acc ≤ 2 ^ m)
    (hc : 0 < c ∧ c ≤ 2 ^ m) (hm : m ≤ 150) :
    hornerStep v acc c = hornerExact v acc c ∧ 0 < hornerStep v acc c ∧ hornerStep v acc c ≤ 2 ^ (m + 2) := by
  have hpow : (2 : Int) ^ m ≤ 2 ^ 150 := pow_le_pow_right₀ (by norm_num) hm
  obtain ⟨heq, -, hle⟩ := hornerStep_bounds (c := c) (B := 2 * 2 ^ m) (abs_le.mpr ⟨by omega, hv.2⟩)
    (abs_le.mpr ⟨by omega, hacc.2⟩) (by omega) (by unfold maxS; omega) (by unfold minS; omega)
    (by unfold maxS; omega)
  refine ⟨heq, ?_, by rw [pow_add]; omega⟩
  have hq : 0 ≤ acc * v / 2 ^ 96 := Int.ediv_nonneg (mul_nonneg hacc.1.le hv.1) (by norm_num)
  rw [heq]
  omega

/-- With positive coefficients a Horner evaluation does not wrap and stays positive (R166). -/
theorem foldl_hornerStep_pos {v : Int} (hv : 0 ≤ v ∧ v ≤ 2 ^ 97) (cs : List Int) {acc : Int} {m : Nat}
    (hacc : 0 < acc ∧ acc ≤ 2 ^ m) (hcs : ∀ c ∈ cs, 0 < c ∧ c ≤ 2 ^ m) (hm : m + 2 * cs.length ≤ 150) :
    cs.foldl (hornerStep v) acc = cs.foldl (hornerExact v) acc ∧ 0 < cs.foldl (hornerStep v) acc := by
  induction cs generalizing acc m with
  | nil => exact ⟨rfl, hacc.1⟩
  | cons c cs ih =>
    simp only [List.length_cons, List.forall_mem_cons] at hm hcs
    obtain ⟨heq, hstep⟩ := hornerStep_pos hv hacc hcs.1 (by omega)
    have hgrow : (2 : Int) ^ m ≤ 2 ^ (m + 2) := pow_le_pow_right₀ (by norm_num) (by omega)
    have hrest := ih hstep (fun d hd => ⟨(hcs.2 d hd).1, (hcs.2 d hd).2.trans hgrow⟩) (by omega)
    simpa only [List.foldl_cons, ← heq] using hrest

/-- R166: the divisor of WADLN is computed without wrapping and positive. -/
theorem lnDenominator_pos {v : Int} (hv : 0 ≤ v ∧ v ≤ 2 ^ 97) :
    lnDenominator lnConst v = [lnConst.q1, lnConst.q2, lnConst.q3, lnConst.q4, lnConst.q5, lnConst.q6].foldl
      (hornerExact v) (v + lnConst.q0) ∧ 0 < lnDenominator lnConst v := by
  have hfirst : addS v lnConst.q0 = v + lnConst.q0 :=
    addS_exact (by simp only [minS, lnConst]; omega) (by simp only [maxS, lnConst]; omega)
  rw [lnDenominator, hfirst]
  exact foldl_hornerStep_pos (m := 110) hv _ (by simp only [lnConst]; omega) (by decide) (by decide)

/-- WADLN has an outcome for every operand. -/
theorem wadLn_completes (x : Word) : ∃ r, wadLn lnConst (s256 x) = some r ∧ r ≠ .fail .illegal := by
  unfold wadLn
  split
  · exact ⟨_, rfl, nofun⟩
  split
  · exact ⟨_, rfl, nofun⟩
  · have hrange := lnNormalize_range (x := x) (by omega)
    have hpos := (lnDenominator_pos (v := lnNormalize (s256 x) (lnExponent (s256 x))) (by omega)).2
    simp only [sdiv_of_ne_zero hpos.ne']
    exact ⟨_, rfl, nofun⟩

/-! ## The divisor of WADEXP -/

/-- Between the thresholds the operand in the 2^96 base does not wrap (R181, R185). -/
theorem expBase_exact {x : Int} (hlo : expConst.lo < x) (hhi : x < expConst.hi) :
    expBase x = some (expBaseExact x) := by
  simp only [expConst] at hlo hhi
  have hshl : s256 (shl (u256 x) 78) = x * 2 ^ 78 :=
    s256_shl_u256_exact (by unfold minS; omega) (by unfold maxS; omega)
  obtain ⟨hq1, hq2⟩ := tdiv_bracket (x * 2 ^ 78) (b := fivePow18) (by decide)
  rw [expBase, hshl, sdiv_exact (by decide)]
  · rfl
  all_goals simp only [minS, maxS, fivePow18] at *; omega

/-- The operand in the 2^96 base, to within one unit. -/
theorem expBaseExact_bracket (x : Int) :
    x * 2 ^ 78 - 5 ^ 18 < 5 ^ 18 * expBaseExact x ∧ 5 ^ 18 * expBaseExact x < x * 2 ^ 78 + 5 ^ 18 :=
  tdiv_bracket _ (by norm_num)

/-- Between the thresholds the binary exponent does not wrap (R181, R185). -/
theorem expExponent_exact {x : Int} (hlo : expConst.lo < x) (hhi : x < expConst.hi) :
    expExponent expConst (expBaseExact x) = some (expExponentExact x) := by
  have hbase := expBaseExact_bracket x
  have hshl : s256 (shl (u256 (expBaseExact x)) 96) = expBaseExact x * 2 ^ 96 := by
    apply s256_shl_u256_exact <;> simp only [minS, maxS, expConst] at * <;> omega
  obtain ⟨hq1, hq2⟩ := tdiv_bracket (expBaseExact x * 2 ^ 96) (b := expConst.ln2) (by decide)
  have hq : sdiv (expBaseExact x * 2 ^ 96) expConst.ln2 = some ((expBaseExact x * 2 ^ 96).tdiv expConst.ln2) := by
    apply sdiv_exact (by decide) <;> simp only [minS, maxS, expConst] at * <;> omega
  have hadd : addS ((expBaseExact x * 2 ^ 96).tdiv expConst.ln2) (2 ^ 95) =
      (expBaseExact x * 2 ^ 96).tdiv expConst.ln2 + 2 ^ 95 := by
    apply addS_exact <;> simp only [minS, maxS, expConst] at * <;> omega
  simp only [expExponent, hshl, hq, hadd, sar_def, expExponentExact]

/-- The exponent is the operand over `ln 2`, rounded to the nearest integer, so the reduced argument is at most half of
`LN2_96` in magnitude (R181). -/
theorem expReducedExact_abs_le (x : Int) : |expReducedExact x| ≤ expConst.ln2 / 2 := by
  obtain ⟨hq1, hq2⟩ := tdiv_bracket (expBaseExact x * 2 ^ 96) (b := expConst.ln2) (by decide)
  have hk : expExponentExact x = ((expBaseExact x * 2 ^ 96).tdiv expConst.ln2 + 2 ^ 95) / 2 ^ 96 := rfl
  have hv : expReducedExact x = expBaseExact x - expExponentExact x * expConst.ln2 := rfl
  rw [abs_le]
  simp only [expConst] at *
  omega

/-- Between the thresholds the exponent lies in `[-61, 195]` (R181). -/
theorem expExponentExact_range {x : Int} (hlo : expConst.lo < x) (hhi : x < expConst.hi) :
    -61 ≤ expExponentExact x ∧ expExponentExact x ≤ 195 := by
  have hbase := expBaseExact_bracket x
  obtain ⟨hq1, hq2⟩ := tdiv_bracket (expBaseExact x * 2 ^ 96) (b := expConst.ln2) (by decide)
  have hk : expExponentExact x = ((expBaseExact x * 2 ^ 96).tdiv expConst.ln2 + 2 ^ 95) / 2 ^ 96 := rfl
  simp only [expConst] at *
  omega

/-- Between the thresholds the range reduction does not wrap (R184, R185). -/
theorem expReduce_exact {x : Int} (hlo : expConst.lo < x) (hhi : x < expConst.hi) :
    expReduce expConst (expBaseExact x) (expExponentExact x) = expReducedExact x := by
  have hk := expExponentExact_range hlo hhi
  have hbase := expBaseExact_bracket x
  have hmul : mulS (expExponentExact x) expConst.ln2 = expExponentExact x * expConst.ln2 := by
    apply mulS_exact <;> simp only [minS, maxS, expConst] at * <;> omega
  have hsub : subS (expBaseExact x) (expExponentExact x * expConst.ln2) =
      expBaseExact x - expExponentExact x * expConst.ln2 := by
    apply subS_exact <;> simp only [minS, maxS, expConst] at * <;> omega
  rw [expReduce, hmul, hsub, expReducedExact]

/-- For an argument of at most one half, a Horner step halves the accumulator before it adds the coefficient. -/
theorem hornerStep_halves {v acc c : Int} {n : Nat} (hv : |v| ≤ 2 ^ 95) (hacc : |acc| ≤ 2 ^ (n + 1))
    (hc : |c| ≤ 2 ^ 150) (hn : n ≤ 150) :
    hornerStep v acc c = hornerExact v acc c ∧ |hornerStep v acc c - c| ≤ 2 ^ n := by
  have hpow : (2 : Int) ^ n ≤ 2 ^ 150 := pow_le_pow_right₀ (by norm_num) hn
  rw [pow_succ] at hacc
  rw [abs_le] at hc
  obtain ⟨heq, hlo, hhi⟩ := hornerStep_bounds (c := c) (B := 2 ^ n) hv hacc (by omega) (by unfold maxS; omega)
    (by unfold minS; omega) (by unfold maxS; omega)
  exact ⟨heq, abs_le.mpr ⟨by omega, by omega⟩⟩

theorem hornerStep_abs_le {v acc c : Int} {n m : Nat} (hv : |v| ≤ 2 ^ 95) (hacc : |acc| ≤ 2 ^ (n + 1))
    (hc : |c| + 2 ^ n ≤ 2 ^ m) (hn : n ≤ 150) (hm : m ≤ 150) :
    hornerStep v acc c = hornerExact v acc c ∧ |hornerStep v acc c| ≤ 2 ^ m := by
  have hpow : (2 : Int) ^ m ≤ 2 ^ 150 := pow_le_pow_right₀ (by norm_num) hm
  have hpos : (0 : Int) < 2 ^ n := by positivity
  obtain ⟨heq, hnear⟩ := hornerStep_halves (c := c) hv hacc (by omega) hn
  have htri := abs_sub_abs_le_abs_sub (hornerStep v acc c) c
  exact ⟨heq, by omega⟩

/-- The divisor of WADEXP is a Horner evaluation: a subtracted coefficient is a negative one. -/
theorem expDenominator_eq_foldl (c : Config.ExpConst) (v : Int) :
    expDenominator c v = [c.f1, -c.f2, c.f3, -c.f4, c.f5].foldl (hornerStep v) (subS v c.f0) := by
  simp only [expDenominator, List.foldl_cons, List.foldl_nil, hornerStep, addS, subS, sub_eq_add_neg]

/-- R186: at a reduced argument the constant term of WADEXP's divisor outweighs all other terms, and nothing wraps. -/
theorem expDenominator_pos {v : Int} (hv : |v| ≤ 2 ^ 95) :
    expDenominator expConst v = [expConst.f1, -expConst.f2, expConst.f3, -expConst.f4, expConst.f5].foldl
      (hornerExact v) (v - expConst.f0) ∧ 0 < expDenominator expConst v := by
  obtain ⟨hv1, hv2⟩ := abs_le.mp hv
  have hfirst : subS v expConst.f0 = v - expConst.f0 := by
    apply subS_exact <;> simp only [minS, maxS, expConst] <;> omega
  have h0 : |v - expConst.f0| ≤ 2 ^ 102 := by
    rw [abs_le]
    simp only [expConst]
    omega
  obtain ⟨e1, h1⟩ := hornerStep_abs_le (c := expConst.f1) (m := 106) hv h0 (by decide) (by decide) (by decide)
  obtain ⟨e2, h2⟩ := hornerStep_abs_le (c := -expConst.f2) (m := 109) hv h1 (by decide) (by decide) (by decide)
  obtain ⟨e3, h3⟩ := hornerStep_abs_le (c := expConst.f3) (m := 112) hv h2 (by decide) (by decide) (by decide)
  obtain ⟨e4, h4⟩ := hornerStep_abs_le (c := -expConst.f4) (m := 114) hv h3 (by decide) (by decide) (by decide)
  obtain ⟨e5, h5⟩ := hornerStep_halves (c := expConst.f5) hv h4 (by decide) (by decide)
  simp only [expDenominator_eq_foldl, hfirst, List.foldl_cons, List.foldl_nil]
  refine ⟨by rw [e5, e4, e3, e2, e1], ?_⟩
  have hlow := (abs_le.mp h5).1
  have hconst : (2 : Int) ^ 113 < expConst.f5 := by decide
  omega

/-- WADEXP has an outcome for every operand. -/
theorem wadExp_completes (x : Int) : ∃ r, wadExp expConst x = some r ∧ r ≠ .fail .illegal := by
  unfold wadExp
  split
  · exact ⟨_, rfl, nofun⟩
  split
  · exact ⟨_, rfl, nofun⟩
  · rename_i hlo hhi
    rw [not_le] at hlo hhi
    have hv : |expReducedExact x| ≤ 2 ^ 95 := (expReducedExact_abs_le x).trans (by decide)
    have hpos := (expDenominator_pos hv).2
    simp only [expBase_exact hlo hhi, expExponent_exact hlo hhi, expReduce_exact hlo hhi, sdiv_of_ne_zero hpos.ne']
    exact ⟨_, rfl, nofun⟩

/-! ## The divisors of the cube roots -/

/-- The scaled operand of the cube roots is positive and fits in a Word (R203). -/
theorem cbrtScale_range {x : Nat} (hx : 0 < x) (hlt : x < 2 ^ 256) :
    0 < (cbrtScale x).1 ∧ (cbrtScale x).1 < 2 ^ 256 := by
  have h2 : cbrtT2 * 10 ^ 36 < 2 ^ 256 := by decide
  have h1 : cbrtT1 = cbrtT2 * 10 ^ 18 := rfl
  unfold cbrtScale
  split
  · exact ⟨hx, hlt⟩
  split <;> dsimp only <;> omega

theorem cbrtSeed_pos (l : Nat) : 0 < cbrtSeed l := by
  have hpow : 1000 ^ (l % 3) ≤ 1260 ^ (l % 3) := Nat.pow_le_pow_left (by norm_num) _
  exact Nat.div_pos (hpow.trans (Nat.le_mul_of_pos_left _ (by positivity))) (by positivity)

/-- From a positive root every refinement has a divisor, so that the refinements are those over natural numbers, and
the root stays positive (R203). -/
theorem newtonSteps_of_pos {value : Nat} (hv : 0 < value) (n : Nat) {y : Nat} (hy : 0 < y) :
    newtonSteps value n y = some ((newtonExact value)^[n] y) ∧ 0 < (newtonExact value)^[n] y := by
  induction n generalizing y with
  | zero => exact ⟨rfl, hy⟩
  | succ n ih =>
    obtain ⟨hstep, hpos⟩ := newtonStep_of_pos hy hv
    simpa only [newtonSteps, hstep, Function.iterate_succ_apply] using ih hpos

/-- WADCBRT is the formula over natural numbers (R202, R203). -/
theorem wadCbrt_eq (x : Word) : wadCbrt x = some (wadCbrtUnbounded x.toNat) := by
  unfold wadCbrt
  split
  · rename_i hx
    subst hx
    rfl
  · rename_i hx
    have hx0 : x.toNat ≠ 0 := fun h => hx (BitVec.eq_of_toNat_eq h)
    obtain ⟨hpos, hlt⟩ := cbrtScale_range (Nat.pos_of_ne_zero hx0) x.isLt
    simp only [log2Floor_eq_log, u256_natCast_toNat_of_lt hlt, (newtonSteps_of_pos hpos _ (cbrtSeed_pos _)).1,
      wadCbrtUnbounded, if_neg hx0]
    rfl

/-- CBRT has a value for every operand. -/
theorem cbrt_eq_some (x : Word) (up : Bool) : ∃ n, cbrt x up = some n := by
  simp only [cbrt, wadCbrt_eq]
  exact ⟨_, rfl⟩

/-! ## The outcome of every instruction -/

theorem ceildiv_ne_illegal (x y : Nat) : ceildiv x y ≠ .fail .illegal := by
  unfold ceildiv
  split
  · nofun
  split <;> nofun

theorem muldiv_ne_illegal (x y d : Word) (up : Bool) : muldiv x y d up ≠ .fail .illegal := by
  unfold muldiv
  dsimp only
  repeat' split
  all_goals nofun

/-- The outcome of an instruction; it has no argument for the state. -/
def outcome : Instr → Option Result
  | .avgu _ x y => some (avgu x y)
  | .avgs _ x y => some (avgs (s256 x) (s256 y))
  | .ceildiv _ x y => some (ceildiv x.toNat y.toNat)
  | .isneg _ x => some (isneg (s256 x))
  | .muldiv _ up x y d => some (muldiv x y d up)
  | .log2 _ up x => some (.ok (u256 (log2Probe x up)) 0)
  | .log10 _ up x => some (.ok (u256 (log10Probe x up)) 0)
  | .log256 _ up x => some (.ok (u256 (log256Probe x up)) 0)
  | .wadln _ x => wadLn lnConst (s256 x)
  | .wadexp _ x => wadExp expConst (s256 x)
  | .cbrt _ up x => rootResult (cbrt x up)
  | .wadcbrt _ x => rootResult (wadCbrt x)

/-- Executing an instruction is responding with its outcome under its tag (R86, R89). -/
theorem exec_eq_respond_outcome (i : Instr) (s : State) : exec i s = respond i.tag (outcome i) s := by
  cases i <;> rfl

/-- Every instruction has an outcome, and none is ILLEGAL. -/
theorem outcome_completes (i : Instr) : ∃ r, outcome i = some r ∧ r ≠ .fail .illegal := by
  cases i with
  | avgu | avgs | isneg | log2 | log10 | log256 => exact ⟨_, rfl, nofun⟩
  | ceildiv tag x y => exact ⟨_, rfl, ceildiv_ne_illegal _ _⟩
  | muldiv tag up x y d => exact ⟨_, rfl, muldiv_ne_illegal x y d up⟩
  | wadln tag x => exact wadLn_completes x
  | wadexp tag x => exact wadExp_completes (s256 x)
  | cbrt tag up x =>
    obtain ⟨n, hn⟩ := cbrt_eq_some x up
    exact ⟨.ok (u256 n) 0, by rw [outcome, hn]; rfl, nofun⟩
  | wadcbrt tag x => exact ⟨.ok (u256 (wadCbrtUnbounded x.toNat)) 0, by rw [outcome, wadCbrt_eq]; rfl, nofun⟩

theorem Result.toResponse_status_ne_illegal {r : Result} (h : r ≠ .fail .illegal) (tag : BitVec 8) :
    (r.toResponse tag).status ≠ .illegal := by
  cases r with
  | ok => nofun
  | fail e => exact fun he => h (congrArg Result.fail he)

/-- A response that is not OK carries no result (R19). -/
theorem Result.toResponse_zero_of_ne_ok (r : Result) (tag : BitVec 8) (h : (r.toResponse tag).status ≠ .ok) :
    (r.toResponse tag).result = 0 ∧ (r.toResponse tag).aux = 0 := by
  cases r with
  | ok => exact absurd rfl h
  | fail => exact ⟨rfl, rfl⟩

/-- Settles O24: every instruction has an outcome, since no divisor inside WADLN, WADEXP and the cube roots is zero. -/
theorem everyInstructionCompletesPurely : Obligations.EveryInstructionCompletesPurely := by
  intro i
  obtain ⟨r, hr, hlegal⟩ := outcome_completes i
  refine ⟨r.toResponse i.tag, fun s => ?_, Result.toResponse_tag _ r, Result.toResponse_status_ne_illegal hlegal _,
    r.toResponse_zero_of_ne_ok _⟩
  rw [exec_eq_respond_outcome, hr, respond_some]

/-! ## The shifts -/

/-- The sign of an SWord is all that an arithmetic shift by 256 or more leaves (R17). -/
theorem sar_s256_of_ge {n : Nat} (hn : 256 ≤ n) (w : Word) :
    sar (s256 w) n = if 0 ≤ s256 w then 0 else -1 := by
  have hlo := s256_ge w
  have hhi := s256_le w
  have hpow : (2 : Int) ^ 256 ≤ 2 ^ n := pow_le_pow_right₀ (by norm_num) hn
  simp only [minS, maxS] at hlo hhi
  rw [sar_def]
  split
  · exact Int.ediv_eq_zero_of_lt ‹_› (by omega)
  · exact (Int.ediv_eq_iff_of_pos (by omega)).mpr (by omega)

/-- Settles O30: the laws of the three shifts, and what an amount of 256 or more leaves. -/
theorem shiftsFollowNotation : Obligations.ShiftsFollowNotation := fun w n =>
  ⟨shl_toNat w n, BitVec.shiftLeft_eq_zero, shr_toNat w n, BitVec.ushiftRight_eq_zero, sar_def _ n,
    fun hn => sar_s256_of_ge hn w⟩

end Sys2Proof.Machine

/-! # PEND at an edge, and its depth (10_state.md R44, R45) -/

namespace Sys2Proof.Machine

theorem cmdTransfers_of_noReset {s : State} (h : s.pins.rst = false) :
    s.cmdTransfers = (s.pins.cmdValid && s.cmdReady) := by
  simp [State.cmdTransfers, h]

theorem rspTransfers_of_noReset {s : State} (h : s.pins.rst = false) :
    s.rspTransfers = (s.rsp.isSome && s.pins.rspReady) := by
  simp [State.rspTransfers, h, Bool.and_comm]

/-- A command transfers only where `cmd_ready` is 1 (R42). -/
theorem cmdReady_of_cmdTransfers {s : State} (h : s.cmdTransfers = true) : s.cmdReady = true := by
  simp only [State.cmdTransfers, Bool.and_eq_true] at h
  exact h.2

/-- PEND gets longer at an edge only by a command that transfers, and by one command (R45). -/
theorem pendAfterEdge_length_le (s : State) :
    s.pendAfterEdge.length ≤ s.pend.length + if s.cmdTransfers then 1 else 0 := by
  cases hrst : s.pins.rst with
  | true => simp [pendAfterEdge_of_reset hrst]
  | false =>
    have hkept : (if s.rspTransfers then s.pend.tail else s.pend).length ≤ s.pend.length := by
      split <;> simp
    have hjoined : (if s.cmdTransfers then [s.pins.cmd.toCommand] else []).length =
        if s.cmdTransfers then 1 else 0 := by
      split <;> rfl
    rw [pendAfterEdge_of_noReset hrst, List.length_append, hjoined]
    exact Nat.add_le_add_right hkept _

/-- PEND stays within DEPTH at an edge, when `cmd_ready` is 1 only with room (R44). -/
theorem pendAfterEdge_length_le_depth {s : State} (hfits : s.pend.length ≤ Config.depth)
    (hready : s.cmdReady = true → s.pend.length < Config.depth) : s.pendAfterEdge.length ≤ Config.depth := by
  have hlen := pendAfterEdge_length_le s
  split at hlen
  · rename_i hc
    have hroom := hready (cmdReady_of_cmdTransfers hc)
    omega
  · omega

/-- `cmd_ready` is 1 only in a cycle that starts with room (R44). -/
theorem pendAfterEdge_length_lt_of_ready {s : State} (h : s.readyAfterEdge = true) :
    s.pendAfterEdge.length < Config.depth := by
  simp only [State.readyAfterEdge, State.roomAfterEdge, Bool.and_eq_true, decide_eq_true_eq] at h
  obtain ⟨⟨-, hroom⟩, -⟩ := h
  exact hroom

/-- Settles O11: what follows the edge in a step leaves PEND alone, and the edge moves it by the two transfers. -/
theorem pendChangesOnlyByTransfers : Obligations.PendChangesOnlyByTransfers := by
  intro s t hstep hrst
  obtain ⟨hpend, -⟩ := step_next_frame hstep
  rw [hpend, pendAfterEdge_of_noReset hrst, rspTransfers_of_noReset hrst, cmdTransfers_of_noReset hrst]

/-- Settles O16: a command transfers only into a PEND that had room before the edge, whether or not a response leaves
it at that edge. -/
theorem pendNeverExceedsDepth : Obligations.PendNeverExceedsDepth := by
  intro s t hfits hready hstep
  obtain ⟨hpend, hcmdReady, -⟩ := step_next_frame hstep
  rw [hpend, hcmdReady]
  exact ⟨pendAfterEdge_length_le_depth hfits hready, pendAfterEdge_length_lt_of_ready, fun hfull =>
    Bool.eq_false_iff.mpr fun hc => (hready (cmdReady_of_cmdTransfers hc)).ne hfull⟩

end Sys2Proof.Machine

/-! # DIVU and the two roundings of a one-word quotient (30_encoding.md R91) -/

namespace Sys2Proof.Machine

/-- The quotient rounded up is the quotient, or one more when a remainder is left. -/
theorem add_sub_one_div_eq {n d : Nat} (hd : 0 < d) :
    (n + d - 1) / d = if n % d = 0 then n / d else n / d + 1 := by
  rw [Nat.add_sub_assoc hd, Nat.add_div hd, Nat.div_eq_of_lt (by omega : d - 1 < d),
    Nat.mod_eq_of_lt (by omega : d - 1 < d)]
  split <;> split <;> omega

/-- A product that fits in a Word is the low word of its pair. -/
theorem mul512_of_lt {x y : Word} (h : x.toNat * y.toNat < 2 ^ 256) :
    (mul512 x y).high = 0 ∧ (mul512 x y).low.toNat = x.toNat * y.toNat := by
  simp only [mul512, u256_natCast_toNat, Nat.mod_eq_of_lt h, Nat.div_eq_of_lt h, and_true]
  rfl

/-- MULDIV of a product that fits in a Word: the exact quotient in the asked rounding, and the remainder (R124). -/
theorem muldiv_of_lt {x y d : Word} (hd : d ≠ 0) (h : x.toNat * y.toNat < 2 ^ 256) (up : Bool) :
    muldiv x y d up = .ok
      (BitVec.ofNat 256 (if up then (x.toNat * y.toNat + d.toNat - 1) / d.toNat else x.toNat * y.toNat / d.toNat))
      (BitVec.ofNat 256 (x.toNat * y.toNat % d.toNat)) := by
  obtain ⟨hhigh, hlow⟩ := mul512_of_lt h
  have hpos : 0 < d.toNat := Nat.pos_of_ne_zero (BitVec.toNat_ne.mp hd)
  have hrem : BitVec.ofNat 256 (x.toNat * y.toNat % d.toNat) = 0 ↔ x.toNat * y.toNat % d.toNat = 0 := by
    rw [← BitVec.toNat_inj, BitVec.toNat_ofNat, Nat.mod_eq_of_lt ((Nat.mod_le _ _).trans_lt h)]
    rfl
  simp only [muldiv, if_neg hd, if_pos hhigh, hlow, add_sub_one_div_eq hpos, addW_eq, u256_natCast,
    Bool.and_eq_true, bne_iff_ne, ne_eq, hrem]
  cases up with
  | false => simp
  | true =>
    by_cases hr : x.toNat * y.toNat % d.toNat = 0
    · simp [hr]
    · simp [hr, BitVec.ofNat_add]

/-- CEILDIV of a non-zero divisor is the quotient rounded up (R104). -/
theorem ceildiv_of_pos {x y : Nat} (hy : 0 < y) : ceildiv x y = .ok (BitVec.ofNat 256 ((x + y - 1) / y)) 0 := by
  rw [ceildiv, if_neg hy.ne']
  split
  · rename_i hx
    rw [hx, Nat.zero_add, Nat.div_eq_of_lt (by omega)]
    rfl
  · rw [u256_natCast, ← Nat.add_div_right _ hy, show x - 1 + y = x + y - 1 by omega]

/-- Settles O8: a product by 1 fits in a Word, so that MULDIV rounds the one-word quotient as CEILDIV does; a zero
divisor is the first test of both. -/
theorem divuIsMuldivByOne : Obligations.DivuIsMuldivByOne := by
  intro up tag x d t a b s
  by_cases hb : b = 0
  · subst hb
    exact ⟨rfl, rfl, rfl⟩
  · have hpos : 0 < b.toNat := Nat.pos_of_ne_zero (BitVec.toNat_ne.mp hb)
    have hone : a.toNat * (1 : Word).toNat = a.toNat := Nat.mul_one _
    have hmuldiv := muldiv_of_lt hb (hone.trans_lt a.isLt) up
    rw [hone] at hmuldiv
    rw [exec_eq_respond_outcome, exec_eq_respond_outcome, outcome, outcome, hmuldiv, ceildiv_of_pos hpos, if_neg hb,
      if_neg hb]
    exact ⟨rfl, rfl, rfl⟩

end Sys2Proof.Machine

/-! # Command words, and ILLEGAL commands in their place (30_encoding.md R85, R88) -/

namespace Sys2Proof

/-- The fields of a command word do not overlap, so the word is their sum (R81). -/
theorem commandWord_eq_ofNat (op : BitVec 5) (rnd : Bool) (tag : BitVec 8) :
    commandWord op rnd tag = BitVec.ofNat 32 (op.toNat + rnd.toNat * 0x100 + tag.toNat * 0x10000) := by
  have hop := op.isLt
  have htag := tag.isLt
  have hrnd := rnd.toNat_lt
  have hlow : rnd.toNat <<< 8 ||| op.toNat = rnd.toNat <<< 8 + op.toNat :=
    (Nat.shiftLeft_add_eq_or_of_lt (by omega) _).symm
  have hword : tag.toNat <<< 16 ||| (rnd.toNat <<< 8 + op.toNat) = tag.toNat <<< 16 + (rnd.toNat <<< 8 + op.toNat) :=
    (Nat.shiftLeft_add_eq_or_of_lt (by omega) _).symm
  apply BitVec.eq_of_toNat_eq
  simp (disch := omega) only [commandWord, BitVec.or_assoc, BitVec.toNat_or, BitVec.toNat_shiftLeft,
    BitVec.toNat_setWidth, BitVec.toNat_ofBool, BitVec.toNat_ofNat, Nat.mod_eq_of_lt, hlow, hword]
  omega

/-- A command word given as the sum of its fields decodes as the command of those fields. -/
theorem decodePacket_wordSum (op : BitVec 5) (rnd : Bool) (tag : BitVec 8) (a b c : Word) :
    decodePacket ⟨BitVec.ofNat 32 (op.toNat + rnd.toNat * 0x100 + tag.toNat * 0x10000), a, b, c⟩ =
      decodeCommand ⟨op, rnd, tag, 0, a, b, c⟩ := by
  rw [← commandWord_eq_ofNat, decodePacket, toCommand_commandWord]

/-- Settles O5: each word of R85 is the sum of its opcode, its RND bit and its tag. -/
theorem commandWordsOfEveryOpcode : Obligations.CommandWordsOfEveryOpcode := by
  intro t a b c
  have word := fun op rnd => decodePacket_wordSum op rnd t a b c
  exact ⟨word 0x00 false, word 0x01 false, word 0x02 false, word 0x03 false, word 0x04 false, word 0x04 true,
    word 0x05 false, word 0x05 true, word 0x06 false, word 0x06 true, word 0x07 false, word 0x07 true,
    word 0x08 false, word 0x09 false, word 0x0A false, word 0x0A true, word 0x0B false⟩

/-- R88 (a), tested before the opcode. -/
theorem decodeCommand_of_reservedBits {k : Command} (h : k.rsv ≠ 0) : decodeCommand k = .error .reservedBits :=
  if_pos h

/-- R88 (b): no arm of the opcode table is left. -/
theorem decodeCommand_of_reservedOpcode {k : Command} (hrsv : k.rsv = 0) (h : 0x0C ≤ k.op.toNat) :
    decodeCommand k = .error .reservedOpcode := by
  rw [decodeCommand, if_neg (not_not.mpr hrsv)]
  split
  case h_13 => rfl
  all_goals omega

/-- R88 (c), on the opcodes whose row has no roundUp. -/
theorem decodeCommand_of_roundUpNotAllowed {k : Command} (hrsv : k.rsv = 0) (hrnd : k.rnd = true)
    (h : k.op.toNat ∈ [0x00, 0x01, 0x02, 0x03, 0x08, 0x09, 0x0B]) :
    decodeCommand k = .error .roundUpNotAllowed := by
  rw [decodeCommand, if_neg (not_not.mpr hrsv)]
  simp only [List.mem_cons, List.not_mem_nil, or_false] at h
  rcases h with h | h | h | h | h | h | h <;> simp [h, hrnd, withoutRoundUp]

end Sys2Proof

namespace Sys2Proof.Machine

/-- A command that does not decode is answered ILLEGAL with its TAG (R88). -/
theorem answer_of_decode_error {k : Command} {e : Illegal} (h : decodeCommand k = .error e) (s : State) :
    answer k s = .next (s.present ⟨.illegal, k.tag, 0, 0⟩) := by
  rw [answer, h]
  rfl

/-- The command that transfers joins the end of PEND (R45). -/
theorem pendAfterEdge_getLast_of_cmdTransfers {s : State} (h : s.cmdTransfers = true) :
    s.pendAfterEdge.getLast? = some s.pins.cmd.toCommand := by
  have hrst : s.pins.rst = false := by
    simp only [State.cmdTransfers, Bool.and_eq_true, Bool.not_eq_true'] at h
    obtain ⟨⟨hrst, -⟩, -⟩ := h
    exact hrst
  rw [pendAfterEdge_of_noReset hrst, if_pos h, List.getLast?_concat]

/-- Settles O6: no clause of R88 leaves an instruction to decode, and the capture at the edge does not decode at all. -/
theorem illegalCommandAnsweredInOrder : Obligations.IllegalCommandAnsweredInOrder := by
  refine ⟨fun k s hillegal => ?_, fun s hrst hvalid hready => ?_⟩
  · by_cases hrsv : k.rsv = 0
    · rcases hillegal with hbits | hop | ⟨hrnd, hop⟩
      · exact absurd hrsv hbits
      · exact answer_of_decode_error (decodeCommand_of_reservedOpcode hrsv hop) s
      · exact answer_of_decode_error (decodeCommand_of_roundUpNotAllowed hrsv hrnd hop) s
    · exact answer_of_decode_error (decodeCommand_of_reservedBits hrsv) s
  · exact pendAfterEdge_getLast_of_cmdTransfers (by simp [cmdTransfers_of_noReset hrst, hvalid, hready])

end Sys2Proof.Machine

/-! # The averages and the ceiling division (40_elementary.md R101, R103, R105) -/

namespace Sys2Proof.Machine

/-! ## AVGU -/

/-- The shared bits count twice in a sum and the differing bits once. -/
theorem two_mul_and_add_xor (a b : Nat) : 2 * (a &&& b) + (a ^^^ b) = a + b := by
  induction a using Nat.strong_induction_on generalizing b with
  | _ a ih =>
    rcases Nat.eq_zero_or_pos a with rfl | ha
    · simp
    · have hhalves := ih (a / 2) (by omega) (b / 2)
      rw [← Nat.and_div_two, ← Nat.xor_div_two] at hhalves
      have hand : (a &&& b) % 2 = 1 ↔ a % 2 = 1 ∧ b % 2 = 1 := Nat.and_mod_two_eq_one
      have hxor : (a ^^^ b) % 2 = (a + b) % 2 := Nat.xor_mod_two_eq
      omega

/-- Half of the sum, without the sum: the form R100 computes. -/
theorem and_add_xor_half (a b : Nat) : (a &&& b) + (a ^^^ b) / 2 = (a + b) / 2 := by
  have hsum := two_mul_and_add_xor a b
  omega

theorem avgu_eq (x y : Word) : avgu x y = .ok (BitVec.ofNat 256 ((x.toNat + y.toNat) / 2)) 0 := by
  rw [avgu, addW, ← Nat.cast_add, u256_natCast, shr_toNat, BitVec.toNat_and, BitVec.toNat_xor, pow_one,
    and_add_xor_half]

/-- Settles O32: the mean is the shared bits plus half of the differing ones. -/
theorem avguIsFloorOfMean : Obligations.AvguIsFloorOfMean := by
  intro tag x y s
  rw [exec_eq_respond_outcome, outcome, avgu_eq]
  rfl

/-! ## AVGS -/

/-- Both readings of a pattern have the parity of its low bit. -/
theorem s256_emod_two (w : Word) : s256 w % 2 = w.toNat % 2 := by
  simp only [s256, BitVec.toInt_eq_toNat_cond]
  split <;> omega

/-- The correction of R102 is 1 exactly when both operands are odd. -/
theorem and_and_one_toNat (x y : Word) :
    (x &&& y &&& 1).toNat = if s256 x % 2 = 1 ∧ s256 y % 2 = 1 then 1 else 0 := by
  have hand : (x.toNat &&& y.toNat) % 2 = 1 ↔ x.toNat % 2 = 1 ∧ y.toNat % 2 = 1 := Nat.and_mod_two_eq_one
  have hbit : (x &&& y &&& 1).toNat = (x.toNat &&& y.toNat) % 2 := by
    rw [BitVec.toNat_and, BitVec.toNat_and]
    exact Nat.and_one_is_mod _
  rw [hbit, s256_emod_two, s256_emod_two]
  split <;> omega

/-- The two floored halves fall short of the floored mean by 1 when both operands are odd, and otherwise give it. -/
theorem avgs_eq (x y : Word) : avgs (s256 x) (s256 y) = .ok (u256 ((s256 x + s256 y) / 2)) 0 := by
  have hmean : sar (s256 x) 1 + sar (s256 y) 1 + (x &&& y &&& 1).toNat = (s256 x + s256 y) / 2 := by
    rw [sar_def, sar_def, and_and_one_toNat]
    split <;> omega
  rw [avgs, u256_s256, u256_s256, hmean]

/-- Settles O33: the correction of R102 makes the sum of the halves the floored mean; the bounds follow from those of
the operands. -/
theorem avgsIsFloorOfSignedMean : Obligations.AvgsIsFloorOfSignedMean := by
  intro tag x y s
  have hxlo := s256_ge x
  have hxhi := s256_le x
  have hylo := s256_ge y
  have hyhi := s256_le y
  simp only [minS, maxS] at hxlo hxhi hylo hyhi
  refine ⟨?_, s256_u256_of_inRange (by unfold minS; omega) (by unfold maxS; omega), ?_, ?_⟩
  · rw [exec_eq_respond_outcome, outcome, avgs_eq]
    rfl
  all_goals
    rw [sar_def, sar_def]
    omega

/-! ## CEILDIV -/

/-- A quotient rounded up is no more than the dividend. -/
theorem ceilDiv_le_self {n d : Nat} (hd : 0 < d) : n ⌈/⌉ d ≤ n :=
  (ceilDiv_le_iff_le_mul hd).mpr (Nat.le_mul_of_pos_left n hd)

/-- Settles O34: CEILDIV is Mathlib's ceiling division, the lower adjoint of multiplication by y, and does not exceed
x. -/
theorem ceildivIsLeastCover : Obligations.CeildivIsLeastCover := by
  intro tag x y s hy
  have hpos : 0 < y.toNat := Nat.pos_of_ne_zero (BitVec.toNat_ne.mp hy)
  have hfits : (BitVec.ofNat 256 (x.toNat ⌈/⌉ y.toNat)).toNat = x.toNat ⌈/⌉ y.toNat := by
    rw [BitVec.toNat_ofNat, Nat.mod_eq_of_lt ((ceilDiv_le_self hpos).trans_lt x.isLt)]
  have hleast (n : Nat) : x.toNat ⌈/⌉ y.toNat ≤ n ↔ x.toNat ≤ n * y.toNat := by
    rw [ceilDiv_le_iff_le_mul hpos, mul_comm]
  refine ⟨BitVec.ofNat 256 (x.toNat ⌈/⌉ y.toNat), ?_, ?_, fun n hn => ?_⟩
  · rw [exec_eq_respond_outcome, outcome, ceildiv_of_pos hpos, ← Nat.ceilDiv_eq_add_pred_div]
    rfl
  · rw [hfits]
    exact (hleast _).mp le_rfl
  · rw [hfits]
    exact (hleast n).mpr hn

end Sys2Proof.Machine

/-! # MULDIV in closed form (41_muldiv.md R120, R122, R124 to R127) -/

namespace Sys2Proof.Machine

/-! ## The wide multiplier and the divider -/

/-- A product of two Words is below `2^512`, so that its high word is carried as itself (R120). -/
theorem mul512_high_toNat (x y : Word) : (mul512 x y).high.toNat = x.toNat * y.toNat / 2 ^ 256 := by
  have hprod : x.toNat * y.toNat < 2 ^ 256 * 2 ^ 256 := Nat.mul_lt_mul'' x.isLt y.isLt
  exact u256_natCast_toNat_of_lt (Nat.div_lt_of_lt_mul hprod)

theorem mul512_low_toNat (x y : Word) : (mul512 x y).low.toNat = x.toNat * y.toNat % 2 ^ 256 :=
  u256_natCast_toNat_of_lt (Nat.mod_lt _ (by norm_num))

theorem mul512_value (x y : Word) : (mul512 x y).value = x.toNat * y.toNat := by
  rw [WidePair.value, mul512_high_toNat, mul512_low_toNat, Nat.div_add_mod']

/-- The one-word path of R124 is taken exactly by the products that fit in a Word. -/
theorem mul512_high_eq_zero_iff (x y : Word) : (mul512 x y).high = 0 ↔ x.toNat * y.toNat < 2 ^ 256 := by
  refine ⟨fun h => ?_, fun h => (mul512_of_lt h).1⟩
  have hzero : (mul512 x y).high.toNat = 0 := congrArg BitVec.toNat h
  rw [mul512_high_toNat] at hzero
  exact (Nat.div_eq_zero_iff_lt (by norm_num)).mp hzero

/-- A quotient is below `b` exactly where the divisor exceeds the quotient by `b`. -/
theorem div_lt_iff_div_lt {n d b : Nat} (hd : 0 < d) (hb : 0 < b) : n / d < b ↔ n / b < d := by
  rw [Nat.div_lt_iff_lt_mul hd, Nat.div_lt_iff_lt_mul hb, mul_comm]

/-- The quotient of a product fits in a Word exactly where the divisor exceeds the high word (R125). -/
theorem mul_div_lt_iff_high_lt (x y : Word) {d : Word} (hpos : 0 < d.toNat) :
    x.toNat * y.toNat / d.toNat < 2 ^ 256 ↔ (mul512 x y).high.toNat < d.toNat := by
  rw [mul512_high_toNat, div_lt_iff_div_lt hpos (by norm_num)]

theorem div512_mul512 (x y d : Word) :
    div512 (mul512 x y) d =
      (BitVec.ofNat 256 (x.toNat * y.toNat / d.toNat), BitVec.ofNat 256 (x.toNat * y.toNat % d.toNat)) := by
  rw [div512, mul512_value, u256_natCast, u256_natCast]

theorem toNat_pos_of_ne_zero {d : Word} (hd : d ≠ 0) : 0 < d.toNat :=
  Nat.pos_of_ne_zero (BitVec.toNat_ne.mp hd)

/-- A remainder is below its divisor, so that it is carried as itself. -/
theorem ofNat_mod_toNat (n : Nat) {d : Word} (hpos : 0 < d.toNat) :
    (BitVec.ofNat 256 (n % d.toNat)).toNat = n % d.toNat :=
  Nat.mod_eq_of_lt ((Nat.mod_lt n hpos).trans d.isLt)

theorem ofNat_mod_eq_zero_iff (n : Nat) {d : Word} (hpos : 0 < d.toNat) :
    BitVec.ofNat 256 (n % d.toNat) = 0 ↔ n % d.toNat = 0 := by
  rw [← BitVec.toNat_inj, ofNat_mod_toNat n hpos]
  rfl

/-! ## The closed form -/

/-- The v of R125: the exact quotient in the asked rounding, whether or not it fits in a Word. -/
def muldivExact (x y d : Word) (up : Bool) : Nat :=
  if up then (x.toNat * y.toNat + d.toNat - 1) / d.toNat else x.toNat * y.toNat / d.toNat

theorem muldivExact_down (x y d : Word) : muldivExact x y d false = x.toNat * y.toNat / d.toNat := rfl

theorem muldivExact_up (x y : Word) {d : Word} (hpos : 0 < d.toNat) :
    muldivExact x y d true =
      if x.toNat * y.toNat % d.toNat = 0 then x.toNat * y.toNat / d.toNat
      else x.toNat * y.toNat / d.toNat + 1 :=
  add_sub_one_div_eq hpos

/-- Rounding up never gives less than the floor. -/
theorem div_le_muldivExact (x y : Word) {d : Word} (hpos : 0 < d.toNat) (up : Bool) :
    x.toNat * y.toNat / d.toNat ≤ muldivExact x y d up := by
  cases up with
  | false => exact le_rfl
  | true =>
    rw [muldivExact_up x y hpos]
    split <;> omega

/-- Neither rounding gives more than the product. -/
theorem muldivExact_le_mul (x y : Word) {d : Word} (hpos : 0 < d.toNat) (up : Bool) :
    muldivExact x y d up ≤ x.toNat * y.toNat := by
  cases up with
  | false => exact Nat.div_le_self _ _
  | true => exact ceilDiv_le_self hpos

/-- The outcome R125 gives a non-zero divisor. -/
def muldivClosed (x y d : Word) (up : Bool) : Result :=
  if muldivExact x y d up ≤ 2 ^ 256 - 1 then
    .ok (BitVec.ofNat 256 (muldivExact x y d up)) (BitVec.ofNat 256 (x.toNat * y.toNat % d.toNat))
  else .fail .overflow

/-- Step 4 of R124. -/
theorem muldiv_of_le_high {x y d : Word} (hd : d ≠ 0) (hhigh : (mul512 x y).high ≠ 0)
    (h : d.toNat ≤ (mul512 x y).high.toNat) (up : Bool) : muldiv x y d up = .fail .overflow := by
  rw [muldiv, if_neg hd]
  simp only [if_neg hhigh, if_pos h]

/-- Step 5 of R124, over natural numbers. -/
theorem muldiv_of_high_lt {x y d : Word} (hhigh : (mul512 x y).high ≠ 0) (h : (mul512 x y).high.toNat < d.toNat)
    (up : Bool) :
    muldiv x y d up =
      if up ∧ x.toNat * y.toNat % d.toNat ≠ 0 then
        if x.toNat * y.toNat / d.toNat = maxW then .fail .overflow
        else .ok (BitVec.ofNat 256 (x.toNat * y.toNat / d.toNat + 1)) (BitVec.ofNat 256 (x.toNat * y.toNat % d.toNat))
      else .ok (BitVec.ofNat 256 (x.toNat * y.toNat / d.toNat)) (BitVec.ofNat 256 (x.toNat * y.toNat % d.toNat)) := by
  have hpos : 0 < d.toNat := by omega
  have hd : d ≠ 0 := BitVec.toNat_ne.mpr hpos.ne'
  have hq : (BitVec.ofNat 256 (x.toNat * y.toNat / d.toNat)).toNat = x.toNat * y.toNat / d.toNat :=
    Nat.mod_eq_of_lt ((mul_div_lt_iff_high_lt x y hpos).mpr h)
  rw [muldiv, if_neg hd]
  simp only [if_neg hhigh, if_neg h.not_ge, div512_mul512, hq, Bool.and_eq_true, bne_iff_ne, ne_eq,
    ofNat_mod_eq_zero_iff _ hpos, addW_eq, BitVec.ofNat_add]
  rfl

/-- The two-word path: where the divisor exceeds the high word only the checked increment can pass MAXW; elsewhere not
even the floor fits. -/
theorem muldiv_of_ge {x y d : Word} (hd : d ≠ 0) (h : 2 ^ 256 ≤ x.toNat * y.toNat) (up : Bool) :
    muldiv x y d up = muldivClosed x y d up := by
  have hpos : 0 < d.toNat := toNat_pos_of_ne_zero hd
  have hhigh : (mul512 x y).high ≠ 0 := fun h0 => h.not_gt ((mul512_high_eq_zero_iff x y).mp h0)
  have hfits := mul_div_lt_iff_high_lt x y hpos
  have hmaxW : maxW = 2 ^ 256 - 1 := rfl
  rw [muldivClosed]
  rcases le_or_gt d.toNat (mul512 x y).high.toNat with hle | hlt
  · have hfloor := div_le_muldivExact x y hpos up
    rw [muldiv_of_le_high hd hhigh hle, if_neg (by omega)]
  · have hq : x.toNat * y.toNat / d.toNat < 2 ^ 256 := hfits.mpr hlt
    rw [muldiv_of_high_lt hhigh hlt]
    cases up with
    | false => rw [muldivExact_down, if_neg (by simp), if_pos (by omega)]
    | true =>
      rw [muldivExact_up x y hpos]
      by_cases hr : x.toNat * y.toNat % d.toNat = 0
      · rw [if_neg (by simp [hr]), if_pos hr, if_pos (by omega)]
      · rw [if_pos ⟨rfl, hr⟩, if_neg hr]
        by_cases hmax : x.toNat * y.toNat / d.toNat = maxW
        · rw [if_pos hmax, if_neg (by omega)]
        · rw [if_neg hmax, if_pos (by omega)]

/-- MULDIV of a non-zero divisor (R125): on the one-word path the quotient is no more than the product, which fits. -/
theorem muldiv_eq_closed {x y d : Word} (hd : d ≠ 0) (up : Bool) : muldiv x y d up = muldivClosed x y d up := by
  by_cases h : x.toNat * y.toNat < 2 ^ 256
  · have hle := muldivExact_le_mul x y (toNat_pos_of_ne_zero hd) up
    rw [muldiv_of_lt hd h, muldivClosed, if_pos (Nat.le_sub_one_of_lt (hle.trans_lt h)), muldivExact]
  · exact muldiv_of_ge hd (not_lt.mp h) up

/-- Settles O40: the closed form on both paths of R124. -/
theorem muldivClosedForm : Obligations.MuldivClosedForm := by
  intro tag up x y d s hd
  rw [exec_eq_respond_outcome, outcome, muldiv_eq_closed hd, respond_some, muldivClosed,
    apply_ite (Result.toResponse _)]
  rfl

/-! ## The inverse law -/

/-- A MULDIV answered OK had a divisor, and its result and AUX are the exact quotient and remainder. -/
theorem muldiv_exact_of_ok {x y d q r : Word} {up : Bool} {tag : BitVec 8}
    (h : (muldiv x y d up).toResponse tag = ⟨.ok, tag, q, r⟩) :
    d ≠ 0 ∧ q.toNat = muldivExact x y d up ∧ r.toNat = x.toNat * y.toNat % d.toNat := by
  by_cases hd : d = 0
  · rw [muldiv, if_pos hd] at h
    cases h
  · rw [muldiv_eq_closed hd, muldivClosed] at h
    split at h
    · rename_i hv
      cases h
      exact ⟨hd, Nat.mod_eq_of_lt (by omega), ofNat_mod_toNat _ (toNat_pos_of_ne_zero hd)⟩
    · cases h

/-- MULDIV rounding up, told from the floor q and the remainder r (R126). -/
theorem muldiv_up_eq {x y d q r : Word} (hd : d ≠ 0) (hq : q.toNat = x.toNat * y.toNat / d.toNat)
    (hr : r.toNat = x.toNat * y.toNat % d.toNat) :
    muldiv x y d true =
      if r = 0 then .ok q r
      else if q.toNat = 2 ^ 256 - 1 then .fail .overflow
      else .ok (BitVec.ofNat 256 (q.toNat + 1)) r := by
  have hqlt := q.isLt
  have hrzero : r = 0 ↔ r.toNat = 0 := BitVec.toNat_inj.symm
  rw [muldiv_eq_closed hd, muldivClosed, muldivExact_up x y (toNat_pos_of_ne_zero hd), ← hq, ← hr,
    BitVec.ofNat_toNat, BitVec.setWidth_eq]
  by_cases h0 : r = 0
  · rw [if_pos h0, if_pos (hrzero.mp h0), if_pos (by omega), BitVec.ofNat_toNat, BitVec.setWidth_eq]
  · rw [if_neg h0, if_neg (hrzero.not.mp h0)]
    by_cases hmax : q.toNat = 2 ^ 256 - 1
    · rw [if_pos hmax, if_neg (by omega)]
    · rw [if_neg hmax, if_pos (by omega)]

/-- Settles O41: the quotient and the remainder of a success are exact, and determine the rounded-up outcome. -/
theorem muldivInverseLaw : Obligations.MuldivInverseLaw := by
  intro tag x y d s t q r hexec hrsp
  rw [exec_eq_respond_outcome, respond_next_iff] at hexec
  obtain ⟨o, ho, rfl⟩ := hexec
  cases ho
  obtain ⟨hd, hq, hr⟩ := muldiv_exact_of_ok (Option.some.inj hrsp)
  rw [muldivExact_down] at hq
  refine ⟨?_, hr, ?_, ?_⟩
  · rw [hq, hr, Nat.div_add_mod']
  · rw [hr]
    exact Nat.mod_lt _ (toNat_pos_of_ne_zero hd)
  · rw [exec_eq_respond_outcome, outcome, muldiv_up_eq hd hq hr, respond_some, apply_ite (Result.toResponse _),
      apply_ite (Result.toResponse _)]
    rfl

/-! ## The one-word path -/

/-- Settles O42: the high word is 0 only for a product that fits, and both roundings of its quotient then fit. -/
theorem oneWordProductNeverOverflows : Obligations.OneWordProductNeverOverflows := by
  intro tag up x y d s hhigh hd
  have hlow := (mul512 x y).low.isLt
  refine ⟨?_, fun htwo => ?_, ?_⟩
  · rintro rfl
    exact Nat.mod_one _
  · exact Nat.div_le_div (by omega) htwo (by norm_num)
  · rw [exec_eq_respond_outcome, outcome, muldiv_of_lt hd ((mul512_high_eq_zero_iff x y).mp hhigh)]
    exact ⟨_, _, rfl⟩

end Sys2Proof.Machine

/-! # The three logarithms in closed form (42_logarithms.md R142, R145, R148, R149) -/

namespace Sys2Proof.Machine

/-! ## A logarithm rounded down or up -/

/-- The base-`b` logarithm of `x`, rounded as RND says; 0 for 0. -/
def roundedLog (b x : Nat) (up : Bool) : Nat := if up then Nat.clog b x else Nat.log b x

@[simp] theorem roundedLog_down (b x : Nat) : roundedLog b x false = Nat.log b x := rfl

@[simp] theorem roundedLog_up (b x : Nat) : roundedLog b x true = Nat.clog b x := rfl

@[simp] theorem roundedLog_zero (b : Nat) (up : Bool) : roundedLog b 0 up = 0 := by
  cases up
  · exact Nat.log_zero_right b
  · exact Nat.clog_of_right_le_one zero_le_one b

theorem roundedLog_mono (b : Nat) (up : Bool) {x y : Nat} (h : x ≤ y) : roundedLog b x up ≤ roundedLog b y up := by
  cases up
  · exact Nat.log_mono_right h
  · exact Nat.clog_mono_right b h

theorem roundedLog_le {b x n : Nat} (h : x ≤ b ^ n) (up : Bool) : roundedLog b x up ≤ n := by
  have hclog : Nat.clog b x ≤ n := Nat.clog_le_of_le_pow h
  cases up
  · exact (Nat.log_le_clog b x).trans hclog
  · exact hclog

theorem isFloorLog_log {b x : Nat} (hb : 1 < b) (hx : x ≠ 0) : IsFloorLog b x (Nat.log b x) :=
  ⟨Nat.pow_log_le_self b hx, Nat.lt_pow_succ_log_self hb x⟩

theorem IsFloorLog.log_eq {b x f : Nat} (h : IsFloorLog b x f) : Nat.log b x = f :=
  Nat.log_eq_of_pow_le_of_lt_pow h.1 h.2

theorem isCeilLog_clog {b : Nat} (hb : 1 < b) (x : Nat) : IsCeilLog b x (Nat.clog b x) :=
  ⟨Nat.le_pow_clog hb x, fun _ => Nat.clog_le_of_le_pow⟩

/-- Rounding up gives the floor at a power of the base, and one more elsewhere. -/
theorem IsFloorLog.clog_eq {b x f : Nat} (hb : 1 < b) (h : IsFloorLog b x f) :
    Nat.clog b x = if x = b ^ f then f else f + 1 := by
  obtain ⟨hlow, hhigh⟩ := h
  split
  · rename_i hpow
    rw [hpow, Nat.clog_pow b f hb]
  · rename_i hne
    have hgt : f < Nat.clog b x := (Nat.lt_clog_iff_pow_lt hb).mpr (lt_of_le_of_ne hlow (Ne.symm hne))
    exact le_antisymm (Nat.clog_le_of_le_pow hhigh.le) hgt

/-- The rounding of the three probes: one more than the floor where the power is short of `x`. -/
theorem roundUp_log_eq {b : Nat} (hb : 1 < b) (x : Nat) (up : Bool) :
    (if up && decide (b ^ Nat.log b x < x) then Nat.log b x + 1 else Nat.log b x) = roundedLog b x up := by
  cases up with
  | false => rfl
  | true =>
    by_cases hx : x = 0
    · subst hx
      simp
    · have hfloor := isFloorLog_log hb hx
      have hlt : b ^ Nat.log b x < x ↔ ¬ x = b ^ Nat.log b x := by
        rw [lt_iff_le_and_ne, ne_comm]
        exact and_iff_right hfloor.1
      rw [roundedLog_up, hfloor.clog_eq hb]
      simp only [Bool.true_and, decide_eq_true_eq, hlt, ite_not]

/-! ## The search by halving digit counts -/

/-- One probe for `e` base-`b` digits: R143's in any base. -/
def digitProbe (b : Nat) (vr : Nat × Nat) (e : Nat) : Nat × Nat :=
  if vr.1 ≥ b ^ e then (vr.1 / b ^ e, vr.2 + e) else vr

theorem digitProbe_ten : digitProbe 10 = decimalProbe := rfl

/-- A probe moves digits of the value into the result: the result and the digits left keep their sum. -/
theorem digitProbe_log_add {b : Nat} (hb : 1 < b) (vr : Nat × Nat) (e : Nat) :
    (digitProbe b vr e).2 + Nat.log b (digitProbe b vr e).1 = vr.2 + Nat.log b vr.1 := by
  unfold digitProbe
  split
  · rename_i hge
    have he : e ≤ Nat.log b vr.1 := Nat.le_log_of_pow_le hb hge
    simp only [Nat.log_div_base_pow]
    omega
  · rfl

/-- A probe halves the number of digits that is left. -/
theorem digitProbe_lt {b e : Nat} {vr : Nat × Nat} (h : vr.1 < b ^ (e + e)) : (digitProbe b vr e).1 < b ^ e := by
  unfold digitProbe
  split
  · exact Nat.div_lt_of_lt_mul (by rwa [← pow_add])
  · rename_i hlt
    exact not_le.mp hlt

/-- Probes for 2^(k−1), …, 2, 1 digits find the logarithm of a value of at most 2^k digits. -/
theorem foldl_digitProbe {b : Nat} (hb : 1 < b) (k : Nat) {vr : Nat × Nat} (h : vr.1 < b ^ 2 ^ k) :
    (((List.range k).reverse.map (2 ^ ·)).foldl (digitProbe b) vr).2 = vr.2 + Nat.log b vr.1 := by
  induction k generalizing vr with
  | zero => simpa using Nat.log_of_lt (by simpa using h)
  | succ k ih =>
    have hlt : (digitProbe b vr (2 ^ k)).1 < b ^ 2 ^ k := digitProbe_lt (by rwa [← two_mul, ← pow_succ'])
    rw [List.range_succ, List.reverse_append]
    exact (ih hlt).trans (digitProbe_log_add hb vr (2 ^ k))

/-! ## What the searches find -/

/-- The decimal search of R143 finds the floor logarithm, and 0 for 0. -/
theorem log10Floor_eq_log (x : Word) : log10Floor x = Nat.log 10 x.toNat := by
  have hx : x.toNat < 10 ^ 2 ^ 7 := x.isLt.trans (by norm_num)
  have h := foldl_digitProbe (by norm_num) 7 (vr := (x.toNat, 0)) hx
  rw [Nat.zero_add, digitProbe_ten] at h
  exact h

/-- A shift by `8 * e` bits is a probe for `e` base-256 digits. -/
theorem shiftProbe_eq_digitProbe (vr : Word × Nat) (e : Nat) :
    digitProbe 256 (Prod.map BitVec.toNat id vr) e = Prod.map BitVec.toNat id (shiftProbe vr (8 * e, e)) := by
  have hpow : (256 : Nat) ^ e = 2 ^ (8 * e) := (pow_mul 2 8 e).symm
  have hne : shr vr.1 (8 * e) ≠ 0 ↔ 2 ^ (8 * e) ≤ vr.1.toNat := by
    rw [← not_lt, not_iff_not, ← BitVec.toNat_inj, shr_toNat]
    exact Nat.div_eq_zero_iff_lt (by positivity)
  unfold digitProbe shiftProbe
  by_cases h : 2 ^ (8 * e) ≤ vr.1.toNat
  · rw [if_pos (hne.mpr h), if_pos (by rw [hpow]; exact h)]
    simp [hpow]
  · rw [if_neg (hne.not.mpr h), if_neg (by rw [hpow]; exact h)]

/-- The byte-width search of R146 finds the floor logarithm, and 0 for 0. -/
theorem log256Floor_eq_log (x : Word) : log256Floor x = Nat.log 256 x.toNat := by
  have hx : x.toNat < 256 ^ 2 ^ 5 := x.isLt.trans_le (by norm_num)
  have h := foldl_digitProbe (by norm_num) 5 (vr := Prod.map BitVec.toNat id (x, 0)) hx
  rw [List.foldl_hom (Prod.map BitVec.toNat id) (g₁ := fun vr e => shiftProbe vr (8 * e, e))
    shiftProbe_eq_digitProbe] at h
  exact h.trans (Nat.zero_add _)

/-! ## The probes of the three logarithms -/

theorem shl_one_toNat {n : Nat} (h : n < 256) : (shl 1 n).toNat = 2 ^ n := by
  rw [shl_toNat]
  exact (congrArg (· % 2 ^ 256) (Nat.one_mul _)).trans (Nat.mod_eq_of_lt (Nat.pow_lt_pow_right (by norm_num) h))

theorem log_two_toNat_lt (x : Word) : Nat.log 2 x.toNat < 256 := Nat.log_lt_of_lt_pow' (by norm_num) x.isLt

theorem log256_eq_log2_div (n : Nat) : Nat.log 256 n = Nat.log 2 n / 8 := Nat.log_pow_left 2 8 n

theorem log2Probe_eq (x : Word) (up : Bool) : log2Probe x up = roundedLog 2 x.toNat up := by
  rw [log2Probe, log2Floor_eq_log, shl_one_toNat (log_two_toNat_lt x), roundUp_log_eq (by norm_num)]

theorem log10Probe_eq (x : Word) (up : Bool) : log10Probe x up = roundedLog 10 x.toNat up := by
  rw [log10Probe, log10Floor_eq_log, roundUp_log_eq (by norm_num)]

theorem log256Probe_eq (x : Word) (up : Bool) : log256Probe x up = roundedLog 256 x.toNat up := by
  have hlt : 8 * Nat.log 256 x.toNat < 256 := by
    have := log_two_toNat_lt x
    rw [log256_eq_log2_div]
    omega
  have hpow : 2 ^ (8 * Nat.log 256 x.toNat) = 256 ^ Nat.log 256 x.toNat := pow_mul 2 8 _
  rw [log256Probe, log256Floor_eq_log, shl_one_toNat hlt, hpow, roundUp_log_eq (by norm_num)]

/-! ## The statements -/

/-- What LOG2, LOG10 and LOG256 share: 0 for 0, the floor rounding down, and the least cover rounding up. -/
theorem roundedLog_spec {b : Nat} (hb : 1 < b) (x : Word) (up : Bool) :
    (x = 0 → roundedLog b x.toNat up = 0) ∧
    (x ≠ 0 → up = false → IsFloorLog b x.toNat (roundedLog b x.toNat up)) ∧
    (x ≠ 0 → up = true → IsCeilLog b x.toNat (roundedLog b x.toNat up)) := by
  refine ⟨?_, ?_, ?_⟩
  · rintro rfl
    exact roundedLog_zero b up
  · rintro hx rfl
    exact isFloorLog_log hb (toNat_pos_of_ne_zero hx).ne'
  · rintro - rfl
    exact isCeilLog_clog hb x.toNat

/-- Rounding up, told from the floor. -/
theorem roundedLog_up_of_isFloorLog {b : Nat} (hb : 1 < b) (x : Nat) (up : Bool) (f : Nat) (hup : up = true)
    (hf : IsFloorLog b x f) : roundedLog b x up = if x = b ^ f then f else f + 1 := by
  rw [hup, roundedLog_up, hf.clog_eq hb]

/-- Settles O43: LOG2 is the rounded logarithm, at most 256. -/
theorem log2ClosedForm : Obligations.Log2ClosedForm := by
  intro tag up x s
  obtain ⟨hzero, hdown, hup⟩ := roundedLog_spec (b := 2) (by norm_num) x up
  refine ⟨_, roundedLog_le x.isLt.le up, ?_, hzero, hdown, hup, roundedLog_up_of_isFloorLog (by norm_num) _ up⟩
  rw [exec_eq_respond_outcome, outcome, log2Probe_eq, u256_natCast]
  rfl

/-- Settles O44: LOG10 is the rounded logarithm, at most 78. -/
theorem log10ClosedForm : Obligations.Log10ClosedForm := by
  intro tag up x s
  have hx : x.toNat ≤ 10 ^ 78 := x.isLt.le.trans (by norm_num)
  obtain ⟨hzero, hdown, hup⟩ := roundedLog_spec (b := 10) (by norm_num) x up
  refine ⟨_, roundedLog_le hx up, ?_, hzero, hdown, hup, roundedLog_up_of_isFloorLog (by norm_num) _ up⟩
  rw [exec_eq_respond_outcome, outcome, log10Probe_eq, u256_natCast]
  rfl

/-- Settles O45: LOG256 is the rounded logarithm, at most 32, and its floor an eighth of the binary one. -/
theorem log256ClosedForm : Obligations.Log256ClosedForm := by
  intro tag up x s
  have hx : x.toNat ≤ 256 ^ 32 := x.isLt.le.trans (by norm_num)
  obtain ⟨hzero, hdown, hup⟩ := roundedLog_spec (b := 256) (by norm_num) x up
  refine ⟨_, roundedLog_le hx up, ?_, hzero, hdown, hup, ?_⟩
  · rw [exec_eq_respond_outcome, outcome, log256Probe_eq, u256_natCast]
    rfl
  · rintro f rfl hf
    rw [roundedLog_down, log256_eq_log2_div, hf.log_eq]

/-- Settles O46: each probe is a rounded logarithm, and both roundings are monotonic. -/
theorem logsAreMonotonic : Obligations.LogsAreMonotonic := by
  intro up x y h
  simp only [log2Probe_eq, log10Probe_eq, log256Probe_eq]
  exact ⟨roundedLog_mono 2 up h, roundedLog_mono 10 up h, roundedLog_mono 256 up h⟩

end Sys2Proof.Machine

/-! # The range reduction of WADLN, and its divisor (43_wad_ln.md R161, R166) -/

namespace Sys2Proof.Machine

/-- A positive operand is a natural number below `2^255`, so its most significant set bit is at most bit 254. -/
theorem toNat_pos_and_log_lt {x : Word} (hx : 0 < s256 x) :
    s256 x = x.toNat ∧ x.toNat ≠ 0 ∧ Nat.log 2 x.toNat < 255 := by
  have hlt : x.toNat < 2 ^ 255 := (s256_nonneg_iff x).mp hx.le
  have hnat := s256_eq_toNat hlt
  exact ⟨hnat, by omega, Nat.log_lt_of_lt_pow (by omega) hlt⟩

/-- `k` is the position of the most significant set bit, less 96 (R161). -/
theorem lnExponent_s256 (x : Word) : lnExponent (s256 x) = (Nat.log 2 x.toNat : Int) - 96 := by
  rw [lnExponent, u256_s256, log2Floor_eq_log]

/-- The shift amount is what the most significant set bit lacks to bit 255 (R161). -/
theorem lnShift_eq (x : Word) : (159 - lnExponent (s256 x)).toNat = 255 - Nat.log 2 x.toNat := by
  rw [lnExponent_s256]
  omega

/-- A shift by what the most significant set bit lacks to bit `n` moves it there. -/
theorem mul_two_pow_sub_log_range {m n : Nat} (hm : m ≠ 0) (hn : Nat.log 2 m ≤ n) :
    2 ^ n ≤ m * 2 ^ (n - Nat.log 2 m) ∧ m * 2 ^ (n - Nat.log 2 m) < 2 ^ (n + 1) := by
  have hpow : 2 ^ Nat.log 2 m * 2 ^ (n - Nat.log 2 m) = 2 ^ n := pow_mul_pow_sub 2 hn
  refine ⟨hpow ▸ Nat.mul_le_mul_right _ (Nat.pow_log_le_self 2 hm), ?_⟩
  calc m * 2 ^ (n - Nat.log 2 m)
      < 2 ^ (Nat.log 2 m + 1) * 2 ^ (n - Nat.log 2 m) :=
        Nat.mul_lt_mul_of_pos_right (Nat.lt_pow_succ_log_self (by norm_num) m) (by positivity)
    _ = 2 ^ (n + 1) := by rw [pow_succ, mul_right_comm, hpow, pow_succ]

/-- The left shift of the range reduction loses no set bit and fills bit 255 (R161). -/
theorem shl_lnShift {x : Word} (hx : 0 < s256 x) :
    (shl x (255 - Nat.log 2 x.toNat)).toNat = x.toNat * 2 ^ (255 - Nat.log 2 x.toNat) ∧
    2 ^ 255 ≤ (shl x (255 - Nat.log 2 x.toNat)).toNat := by
  obtain ⟨-, hne, hlog⟩ := toNat_pos_and_log_lt hx
  obtain ⟨hlow, hhigh⟩ := mul_two_pow_sub_log_range hne hlog.le
  rw [shl_toNat, Nat.mod_eq_of_lt hhigh]
  exact ⟨rfl, hlow⟩

/-- The two shifts together scale by `2^(−k)`: with `l` at least 96 the right shift outweighs the left one, below 96 the
left one the right one (R161). -/
theorem mul_two_pow_div_eq_scaleDown (m : Nat) {l : Nat} (hl : l ≤ 255) :
    ((m * 2 ^ (255 - l) / 2 ^ 159 : Nat) : Int) = scaleDown m (l - 96) := by
  rw [scaleDown]
  split
  case isTrue h =>
    have hright : 2 ^ 159 = 2 ^ (l - 96) * 2 ^ (255 - l) := by
      rw [← pow_add, show l - 96 + (255 - l) = 159 by omega]
    have hk : ((l : Int) - 96).toNat = l - 96 := by omega
    rw [hright, Nat.mul_div_mul_right _ _ (by positivity), hk]
    push_cast
    rfl
  case isFalse h =>
    have hleft : 2 ^ (255 - l) = 2 ^ (96 - l) * 2 ^ 159 := by
      rw [← pow_add, show 96 - l + 159 = 255 - l by omega]
    have hk : (-((l : Int) - 96)).toNat = 96 - l := by omega
    rw [hleft, ← mul_assoc, Nat.mul_div_cancel _ (by positivity), hk]
    push_cast
    rfl

/-- The normalized operand is `floor(x · 2^(−k))` (R161). -/
theorem lnNormalize_eq_scaleDown {x : Word} (hx : 0 < s256 x) :
    lnNormalize (s256 x) (lnExponent (s256 x)) = scaleDown (s256 x) (lnExponent (s256 x)) := by
  obtain ⟨hnat, -, hlog⟩ := toNat_pos_and_log_lt hx
  have hvalue : (shr (shl x (255 - Nat.log 2 x.toNat)) 159).toNat =
      x.toNat * 2 ^ (255 - Nat.log 2 x.toNat) / 2 ^ 159 := by
    rw [shr_toNat, (shl_lnShift hx).1]
  calc lnNormalize (s256 x) (lnExponent (s256 x))
      = ((x.toNat * 2 ^ (255 - Nat.log 2 x.toNat) / 2 ^ 159 : Nat) : Int) := by
        rw [lnNormalize, u256_s256, lnShift_eq, s256_eq_toNat (by rw [shr_toNat]; omega), hvalue]
    _ = scaleDown (s256 x) (lnExponent (s256 x)) := by
        rw [mul_two_pow_div_eq_scaleDown _ hlog.le, lnExponent_s256, hnat]

/-- Settles O48: the most significant set bit goes to bit 255 and from there to bit 96, which scales by `2^(−k)`. -/
theorem wadlnNormalizesOperand : Obligations.WadlnNormalizesOperand := by
  intro x hx k
  obtain ⟨-, -, hlog⟩ := toNat_pos_and_log_lt hx
  have hk : k = (Nat.log 2 x.toNat : Int) - 96 := lnExponent_s256 x
  have hshift : (159 - k).toNat = 255 - Nat.log 2 x.toNat := lnShift_eq x
  obtain ⟨hexact, htop⟩ := shl_lnShift hx
  rw [hshift]
  exact ⟨by omega, by omega, hexact, htop, lnNormalize_eq_scaleDown hx, lnNormalize_range hx⟩

/-- Settles O49: the normalized operand is not negative, so every Horner step of the divisor stays positive. -/
theorem wadlnDivisorPositive : Obligations.WadlnDivisorPositive := by
  intro x hx
  obtain ⟨hlow, hhigh⟩ := lnNormalize_range hx
  exact (lnDenominator_pos ⟨by omega, hhigh.le⟩).2

end Sys2Proof.Machine

/-! # The seed of the cube roots (45_cube_roots.md R201) -/

namespace Sys2Proof.Machine

/-- The seed's division never meets a zero divisor (R201). -/
theorem udiv_eq_some_cbrtSeed (l : Nat) :
    udiv (2 ^ (l / 3) * 1260 ^ (l % 3)) (1000 ^ (l % 3)) = some (cbrtSeed l) :=
  udiv_of_pos (by positivity)

/-- Each factor of the seed's product is bounded through its exponent: `l / 3` is at most 85 for an `l` that log2Floor
can give, and `l mod 3` at most 2 (R201). -/
theorem cbrtSeed_product_le {l : Nat} (hl : l ≤ 255) : 2 ^ (l / 3) * 1260 ^ (l % 3) ≤ 2 ^ 85 * 1260 ^ 2 := by
  have hquot : l / 3 ≤ 85 := by omega
  have hrem : l % 3 ≤ 2 := by omega
  exact Nat.mul_le_mul (Nat.pow_le_pow_right (by norm_num) hquot) (Nat.pow_le_pow_right (by norm_num) hrem)

/-- Settles O55: the divisor, a power of 1000, is positive and at most the same power of 1260 in the product, so the seed
is at least 1; both exponents in the product are bounded. -/
theorem cbrtSeedInRange : Obligations.CbrtSeedInRange := by
  intro l
  exact ⟨udiv_eq_some_cbrtSeed l, cbrtSeed_pos l, fun hl => ⟨cbrtSeed_product_le hl, by norm_num⟩⟩

end Sys2Proof.Machine

/-! # The zero outcomes, and the opcodes that never fail (60_exceptions.md R222) -/

namespace Sys2Proof

/-! ## The instructions that never fail -/

/-- The eight instructions of the last clause of R222. -/
def Instr.neverFails : Instr → Bool
  | .avgu .. | .avgs .. | .isneg .. | .log2 .. | .log10 .. | .log256 .. | .cbrt .. | .wadcbrt .. => true
  | .ceildiv .. | .muldiv .. | .wadln .. | .wadexp .. => false

/-- None of R88 (a), (b), (c) holds of a legal command. -/
theorem Command.legal_iff (k : Command) : k.legal = true ↔
    k.rsv = 0 ∧ k.op.toNat < 0x0C ∧ (k.rnd = true → k.op.toNat ∈ [0x04, 0x05, 0x06, 0x07, 0x0A]) := by
  have hround : k.roundUpAllowed = true ↔ (k.rnd = true → k.op.toNat ∈ [0x04, 0x05, 0x06, 0x07, 0x0A]) := by
    cases hrnd : k.rnd <;>
      simp [Command.roundUpAllowed, Command.takesRoundUp, hrnd, ← BitVec.toNat_inj, or_assoc]
  simp only [Command.legal, Bool.and_eq_true, hround, and_assoc, Command.reservedClear, Command.opAssigned,
    beq_iff_eq, decide_eq_true_eq]

/-- A legal command of an opcode that R222 names decodes to its instruction: of the eight, those without a roundUp
argument have RND = 0 (R88 (c)). -/
theorem decodeCommand_neverFails_of_legal {k : Command} (hlegal : k.legal = true)
    (hop : k.op.toNat ∈ [0x00, 0x01, 0x03, 0x05, 0x06, 0x07, 0x0A, 0x0B]) :
    ∃ i, decodeCommand k = .ok i ∧ i.neverFails = true := by
  obtain ⟨hrsv, -, hround⟩ := (Command.legal_iff k).mp hlegal
  have hgroups : k.op.toNat ∈ [0x00, 0x01, 0x03, 0x0B] ∨ k.op.toNat ∈ [0x05, 0x06, 0x07, 0x0A] := by
    simp only [List.mem_cons, List.not_mem_nil, or_false] at hop ⊢
    omega
  simp only [List.mem_cons, List.not_mem_nil, or_false] at hround hgroups
  rw [decodeCommand, if_neg (not_not.mpr hrsv)]
  rcases hgroups with hplain | hrounded
  · have hrnd : k.rnd = false := Bool.eq_false_iff.mpr fun hup => by
      have := hround hup
      omega
    rcases hplain with h | h | h | h <;> simp only [h, hrnd] <;> exact ⟨_, rfl, rfl⟩
  · rcases hrounded with h | h | h | h <;> simp only [h] <;> exact ⟨_, rfl, rfl⟩

end Sys2Proof

namespace Sys2Proof.Machine

/-- The eight instructions have no failing branch: the cube roots always have a value (R203). -/
theorem outcome_ok_of_neverFails {i : Instr} (h : i.neverFails = true) : ∃ w, outcome i = some (.ok w 0) := by
  cases i with
  | avgu | avgs | isneg | log2 | log10 | log256 => exact ⟨_, rfl⟩
  | cbrt tag up x =>
    obtain ⟨n, hn⟩ := cbrt_eq_some x up
    exact ⟨u256 n, by rw [outcome, hn]; rfl⟩
  | wadcbrt tag x => exact ⟨u256 (wadCbrtUnbounded x.toNat), by rw [outcome, wadCbrt_eq]; rfl⟩
  | ceildiv | muldiv | wadln | wadexp => cases h

/-- `Exec` of a command that decodes is the outcome of its instruction under its tag (R89). -/
theorem responseTo_of_decode {k : Command} {i : Instr} {o : Result} (hdecode : decodeCommand k = .ok i)
    (houtcome : outcome i = some o) : responseTo k = some (o.toResponse i.tag) := by
  have hanswer : answer k State.reset = .next (State.reset.present (o.toResponse i.tag)) := by
    rw [answer, hdecode]
    dsimp only
    rw [exec_eq_respond_outcome, houtcome, respond_some]
  rw [responseTo, hanswer]
  rfl

/-! ## Outcomes of 0 -/

section ZeroOutcomes

/-- An outcome of 0 is presented as OK with RESULT and AUX 0. -/
theorem exec_of_outcome_zero {i : Instr} (h : outcome i = some (.ok 0 0)) (s : State) :
    exec i s = .next (s.present ⟨.ok, i.tag, 0, 0⟩) := by
  rw [exec_eq_respond_outcome, h]
  rfl

variable (tag : BitVec 8) (up : Bool)

/-- R180: the lower threshold is tested first. -/
theorem outcome_wadexp_of_le {x : Word} (h : s256 x ≤ expConst.lo) : outcome (.wadexp tag x) = some (.ok 0 0) :=
  if_pos h

/-- R104: with a divisor, `x = 0` is tested next. -/
theorem outcome_ceildiv_zero {y : Word} (hy : y ≠ 0) : outcome (.ceildiv tag 0 y) = some (.ok 0 0) :=
  congrArg some (if_neg (toNat_pos_of_ne_zero hy).ne')

/-- The pattern of a logarithm of 0, in every base and both roundings. -/
theorem u256_roundedLog_zero (b : Nat) : u256 (roundedLog b (0 : Word).toNat up) = 0 :=
  congrArg (fun n : Nat => u256 n) (roundedLog_zero b up)

theorem outcome_log2_zero : outcome (.log2 tag up 0) = some (.ok 0 0) := by
  rw [outcome, log2Probe_eq, u256_roundedLog_zero]

theorem outcome_log10_zero : outcome (.log10 tag up 0) = some (.ok 0 0) := by
  rw [outcome, log10Probe_eq, u256_roundedLog_zero]

theorem outcome_log256_zero : outcome (.log256 tag up 0) = some (.ok 0 0) := by
  rw [outcome, log256Probe_eq, u256_roundedLog_zero]

/-- R160: neither negative nor past the test for 0. -/
theorem outcome_wadln_zero : outcome (.wadln tag 0) = some (.ok 0 0) := rfl

theorem outcome_wadcbrt_zero : outcome (.wadcbrt tag 0) = some (.ok 0 0) := rfl

/-- The cube of 0 is 0, so that rounding up adds nothing (R206). -/
theorem outcome_cbrt_zero : outcome (.cbrt tag up 0) = some (.ok 0 0) := by
  cases up <;> rfl

end ZeroOutcomes

/-! ## The statement -/

/-- Settles O28: each zero outcome is a `return` of its operation, and the opcodes that R222 names decode, on a legal
command, to instructions without a failing branch. -/
theorem zeroOutcomesAreSuccesses : Obligations.ZeroOutcomesAreSuccesses := by
  refine ⟨fun tag up x s => ⟨fun hx => ?_, fun hx => ?_, ?_, ?_, ?_, ?_, ?_, ?_⟩, fun k r hlegal hop hr => ?_⟩
  · exact exec_of_outcome_zero (outcome_wadexp_of_le tag hx) s
  · exact exec_of_outcome_zero (outcome_ceildiv_zero tag hx) s
  · exact exec_of_outcome_zero (outcome_log2_zero tag up) s
  · exact exec_of_outcome_zero (outcome_log10_zero tag up) s
  · exact exec_of_outcome_zero (outcome_log256_zero tag up) s
  · exact exec_of_outcome_zero (outcome_wadln_zero tag) s
  · exact exec_of_outcome_zero (outcome_cbrt_zero tag up) s
  · exact exec_of_outcome_zero (outcome_wadcbrt_zero tag) s
  · obtain ⟨i, hdecode, hi⟩ := decodeCommand_neverFails_of_legal hlegal hop
    obtain ⟨w, hw⟩ := outcome_ok_of_neverFails hi
    rw [responseTo_of_decode hdecode hw] at hr
    cases hr
    rfl

end Sys2Proof.Machine

/-! # The reset edge (70_reset_and_hazards.md R250, R251) -/

namespace Sys2Proof.Machine

/-- The cycle that a reset edge begins: the one of `State.reset`, with the host's next input wires, a pause drawn for
the empty PEND, and the edge counted. -/
def State.afterResetEdge (s : State) : State :=
  { State.reset with
    pins := s.script.headD s.pins
    script := s.script.tail
    cmdWait := Config.cmdPause s.cycle []
    cycle := s.cycle + 1 }

theorem cmdTransfers_of_reset {s : State} (h : s.pins.rst = true) : s.cmdTransfers = false := by
  simp [State.cmdTransfers, h]

theorem rspTransfers_of_reset {s : State} (h : s.pins.rst = true) : s.rspTransfers = false := by
  simp [State.rspTransfers, h]

theorem readyAfterEdge_of_reset {s : State} (h : s.pins.rst = true) : s.readyAfterEdge = false := by
  simp [State.readyAfterEdge, h]

/-- No command is left to become the head of PEND. -/
theorem headArrives_of_reset {s : State} (h : s.pins.rst = true) : s.headArrives = false := by
  simp [State.headArrives, pendAfterEdge_of_reset h]

theorem pauseAfterEdge_of_reset {s : State} (h : s.pins.rst = true) :
    s.pauseAfterEdge = Config.cmdPause s.cycle [] := by
  simp [State.pauseAfterEdge, pendAfterEdge_of_reset h, h]

theorem afterEdge_of_reset {s : State} (h : s.pins.rst = true) : s.afterEdge = s.afterResetEdge := by
  simp [State.afterEdge, State.afterResetEdge, State.reset, pendAfterEdge_of_reset h, readyAfterEdge_of_reset h,
    headArrives_of_reset h, pauseAfterEdge_of_reset h, h]

/-- A reset edge leaves no head to answer and none to wait for: the step ends with the edge. -/
theorem step_of_reset {s : State} (h : s.pins.rst = true) : step s = .next s.afterResetEdge := by
  rw [step, afterEdge_of_reset h]
  rfl

/-- Settles O12: what a reset edge begins is the cycle of the reset state, but for the model's own fields and the input
wires. -/
theorem resetEmptiesPend : Obligations.ResetEmptiesPend := fun s h =>
  ⟨cmdTransfers_of_reset h, rspTransfers_of_reset h, s.afterResetEdge, step_of_reset h, rfl, rfl, rfl⟩

/-- The cycle after a reset edge takes from the one before it the host's script and the edge number only; the wires of
the cycle before carry over only where the script is empty (log entry 2). -/
theorem afterResetEdge_congr {s s' : State} (hne : s.script ≠ []) (hscript : s'.script = s.script)
    (hcycle : s'.cycle = s.cycle) : s'.afterResetEdge = s.afterResetEdge := by
  obtain ⟨pins, rest, hcons⟩ := List.exists_cons_of_ne_nil hne
  rw [State.afterResetEdge, State.afterResetEdge, hscript, hcycle, hcons, List.headD_cons, List.headD_cons]

/-- Settles O13: both states step to the same cycle, and the second reset edge begins again the cycle of the reset
state. -/
theorem resetIgnoresInputsAndHistory : Obligations.ResetIgnoresInputsAndHistory := by
  refine ⟨fun s s' h h' hne hscript hcycle => ?_, fun s t h hstep h' => ?_⟩
  · rw [step_of_reset h, step_of_reset h', afterResetEdge_congr hne hscript hcycle]
  · rw [step_of_reset h] at hstep
    cases hstep
    exact ⟨_, step_of_reset h', rfl, rfl, rfl⟩

end Sys2Proof.Machine

/-! # Decoding and encoding (30_encoding.md R81, R83, R84, R88) -/

namespace Sys2Proof

/-! ## The commands that decode to one instruction -/

/-- A command with the operands that the instruction does not read set to 0 (R83). -/
def Instr.clearUnread (i : Instr) (k : Command) : Command :=
  match i with
  | .muldiv .. => k
  | .avgu .. | .avgs .. | .ceildiv .. => { k with c := 0 }
  | .isneg .. | .log2 .. | .log10 .. | .log256 .. | .wadln .. | .wadexp .. | .cbrt .. | .wadcbrt .. =>
      { k with b := 0, c := 0 }

theorem withoutRoundUp_eq_ok_iff {rnd : Bool} {i j : Instr} :
    withoutRoundUp rnd i = .ok j ↔ rnd = false ∧ i = j := by
  cases rnd <;> simp [withoutRoundUp]

/-- The command of an instruction: its fields (R84), no reserved bit, and 0 for the operands it does not read. -/
def Instr.command : Instr → Command
  | .avgu t x y => ⟨0x00, false, t, 0, x, y, 0⟩
  | .avgs t x y => ⟨0x01, false, t, 0, x, y, 0⟩
  | .ceildiv t x y => ⟨0x02, false, t, 0, x, y, 0⟩
  | .isneg t x => ⟨0x03, false, t, 0, x, 0, 0⟩
  | .muldiv t up x y d => ⟨0x04, up, t, 0, x, y, d⟩
  | .log2 t up x => ⟨0x05, up, t, 0, x, 0, 0⟩
  | .log10 t up x => ⟨0x06, up, t, 0, x, 0, 0⟩
  | .log256 t up x => ⟨0x07, up, t, 0, x, 0, 0⟩
  | .wadln t x => ⟨0x08, false, t, 0, x, 0, 0⟩
  | .wadexp t x => ⟨0x09, false, t, 0, x, 0, 0⟩
  | .cbrt t up x => ⟨0x0A, up, t, 0, x, 0, 0⟩
  | .wadcbrt t x => ⟨0x0B, false, t, 0, x, 0, 0⟩

theorem toCommand_encode (i : Instr) : (encode i).toCommand = i.command := by
  cases i <;> exact toCommand_commandWord ..

/-- A command decodes to an instruction exactly when, but for the operands that the instruction does not read, it is
the instruction's command. -/
theorem decodeCommand_eq_ok_iff {k : Command} {i : Instr} :
    decodeCommand k = .ok i ↔ i.clearUnread k = i.command := by
  obtain ⟨op, rnd, tag, rsv, a, b, c⟩ := k
  constructor
  · intro h
    by_cases hrsv : rsv = 0
    case neg => simp [decodeCommand_of_reservedBits (k := ⟨op, rnd, tag, rsv, a, b, c⟩) hrsv] at h
    rw [decodeCommand, if_neg (not_not.mpr hrsv)] at h
    split at h
    case h_5 | h_6 | h_7 | h_8 | h_11 =>
      cases h
      simp_all [Instr.clearUnread, Instr.command, ← BitVec.toNat_inj]
    case h_13 => cases h
    all_goals
      obtain ⟨hrnd, rfl⟩ := withoutRoundUp_eq_ok_iff.mp h
      simp_all [Instr.clearUnread, Instr.command, ← BitVec.toNat_inj]
  · intro h
    cases i <;> cases h <;> rfl

theorem clearUnread_command (i : Instr) : i.clearUnread i.command = i.command := by
  cases i <;> rfl

/-- Settles O1: the 800-bit number gives the packet back, and the fields of its word give the command back. -/
theorem encodedBitsDecodeBack : Obligations.EncodedBitsDecodeBack := by
  intro i
  rw [ofBits_toBits, decodePacket, toCommand_encode, decodeCommand_eq_ok_iff, clearUnread_command]

/-- A command word without a reserved bit is laid out from its own fields (R81). -/
theorem commandWord_toCommand {p : Packet} (h : p.toCommand.rsv = 0) :
    commandWord p.toCommand.op p.toCommand.rnd p.toCommand.tag = p.word := by
  have hw := p.word.isLt
  have hrnd : p.toCommand.rnd.toNat = p.word.toNat / 2 ^ 8 % 2 := by
    rw [← Nat.toNat_testBit]
    rfl
  have hfield (start len : Nat) : (p.word.extractLsb' start len).toNat = p.word.toNat / 2 ^ start % 2 ^ len := by
    rw [BitVec.extractLsb'_toNat, Nat.shiftRight_eq_div_pow]
  rw [toCommand_rsv_eq_zero_iff] at h
  simp only [← BitVec.toNat_inj, hfield, BitVec.ofNat_eq_ofNat, BitVec.toNat_ofNat] at h
  obtain ⟨hhigh, hmid, hlow⟩ := h
  apply BitVec.eq_of_toNat_eq
  rw [commandWord_eq_ofNat, hrnd, BitVec.toNat_ofNat, show p.toCommand.op.toNat = _ from hfield 0 5,
    show p.toCommand.tag.toNat = _ from hfield 16 8]
  omega

/-- Settles O2: the word of a packet that decodes has no reserved bit, so it is the word of its instruction. -/
theorem decodedPacketIsEncoding : Obligations.DecodedPacketIsEncoding := by
  intro p i h
  have hcmd := decodeCommand_eq_ok_iff.mp h
  have hword : p.toCommand.rsv = 0 → commandWord p.toCommand.op p.toCommand.rnd p.toCommand.tag = p.word :=
    commandWord_toCommand
  obtain ⟨w, a, b, c⟩ := p
  cases i <;> simp_all [Instr.clearUnread, Instr.command, encode, Packet.toCommand]

/-- Settles O3: the last test of the decoder, RND on an opcode without roundUp, is clause (c) of R88. -/
theorem decoderAcceptsExactlyLegal : Obligations.DecoderAcceptsExactlyLegal := by
  intro k
  rw [Command.legal_iff]
  by_cases hrsv : k.rsv = 0
  case neg => simp [decodeCommand_of_reservedBits hrsv, show ¬k.rsv = 0#18 from hrsv]
  rw [decodeCommand, if_neg (not_not.mpr hrsv)]
  split
  case h_13 =>
    simp only [imp_false] at *
    have hop : ¬k.op.toNat < 0x0C := by omega
    simp [hop]
  all_goals simp_all [withoutRoundUp_eq_ok_iff]

/-! ## The opcode table -/

/-- The opcode of a table row. -/
def OpRow.op (r : OpRow) : BitVec 5 := r.value.extractLsb' 0 5

/-- The bits that a row fixes: all but TAG, and but RND on an opcode with a roundUp argument (R81, R84). -/
def rowMask (roundUp : Bool) : BitVec 32 := if roundUp then 0xFF00FEFF else 0xFF00FFFF

theorem toCommand_and_rowMask (p : Packet) (roundUp : Bool) :
    Packet.toCommand ⟨p.word &&& rowMask roundUp, p.a, p.b, p.c⟩ =
      { p.toCommand with rnd := p.toCommand.rnd && !roundUp, tag := 0 } := by
  have kept (start len : Nat) (h : (rowMask roundUp).extractLsb' start len = BitVec.allOnes len) :
      (p.word &&& rowMask roundUp).extractLsb' start len = p.word.extractLsb' start len := by
    rw [BitVec.extractLsb'_and, h, BitVec.and_allOnes]
  have htag : (p.word &&& rowMask roundUp).extractLsb' 16 8 = 0 := by
    rw [BitVec.extractLsb'_and, show (rowMask roundUp).extractLsb' 16 8 = 0 by cases roundUp <;> rfl]
    exact BitVec.and_zero
  have hrnd : (p.word &&& rowMask roundUp).getLsbD 8 = (p.word.getLsbD 8 && !roundUp) := by
    rw [BitVec.getLsbD_and, show (rowMask roundUp).getLsbD 8 = !roundUp by cases roundUp <;> rfl]
  simp only [Packet.toCommand, htag, hrnd]
  rw [kept, kept, kept, kept] <;> cases roundUp <;> rfl

/-- On the bits that a row fixes, a word agrees with the row exactly when no reserved bit is set, the opcode is the row's,
and RND is set only where the row leaves it free. -/
theorem and_rowMask_eq_iff (p : Packet) (op : BitVec 5) (roundUp : Bool) :
    p.word &&& rowMask roundUp = commandWord op false 0 ↔
      p.toCommand.rsv = 0 ∧ p.toCommand.op = op ∧ (p.toCommand.rnd = true → roundUp = true) := by
  have hmasked := toCommand_and_rowMask p roundUp
  constructor
  · intro h
    rw [h, toCommand_commandWord, Command.mk.injEq] at hmasked
    obtain ⟨hop, hrnd, -, hrsv, -⟩ := hmasked
    exact ⟨hrsv.symm, hop.symm, fun hup => by simpa [hup] using hrnd⟩
  · rintro ⟨hrsv, rfl, hrnd⟩
    have hword := commandWord_toCommand (p := ⟨p.word &&& rowMask roundUp, p.a, p.b, p.c⟩) (by rw [hmasked, hrsv])
    have hclear : (p.toCommand.rnd && !roundUp) = false := by
      cases hup : p.toCommand.rnd <;> simp_all
    rw [hmasked, hclear] at hword
    exact hword.symm

/-- Every row is laid out as R81 and R84 say. -/
theorem opcodeTable_row : ∀ r ∈ opcodeTable, r.op.toNat < 0x0C ∧ r.value = commandWord r.op false 0 ∧
    r.mask = rowMask (r.op.toNat ∈ [0x04, 0x05, 0x06, 0x07, 0x0A]) := by decide

/-- A word belongs to a row exactly when its command is legal and has the row's opcode. -/
theorem covers_iff {r : OpRow} (hr : r ∈ opcodeTable) (p : Packet) :
    r.covers p.word = true ↔ p.toCommand.legal = true ∧ p.toCommand.op = r.op := by
  obtain ⟨hop, hvalue, hmask⟩ := opcodeTable_row r hr
  rw [OpRow.covers, beq_iff_eq, hmask, hvalue, and_rowMask_eq_iff, Command.legal_iff, decide_eq_true_eq]
  constructor
  · rintro ⟨hrsv, hop', hrnd⟩
    rw [hop']
    exact ⟨⟨hrsv, hop, hrnd⟩, rfl⟩
  · rintro ⟨⟨hrsv, -, hrnd⟩, hop'⟩
    rw [hop'] at hrnd
    exact ⟨hrsv, hop', hrnd⟩

/-- The row with an instruction's opcode is the one of its mnemonic (R84). -/
theorem mnemonic_eq_of_op {r : OpRow} (hr : r ∈ opcodeTable) {i : Instr} (h : i.command.op = r.op) :
    r.mnemonic = i.mnemonic := by
  revert r
  cases i <;> dsimp only [Instr.mnemonic, Instr.command] <;> decide

theorem exists_row (i : Instr) : ∃ r ∈ opcodeTable, i.command.op = r.op := by
  cases i <;> dsimp only [Instr.command] <;> decide

/-- The opcode of a command that decodes is that of its instruction. -/
theorem op_of_decodeCommand {k : Command} {i : Instr} (h : decodeCommand k = .ok i) :
    k.op = i.command.op := by
  rw [← decodeCommand_eq_ok_iff.mp h]
  cases i <;> rfl

/-- Settles O4: belonging to a row is being legal with the row's opcode, and no two rows have the same opcode. -/
theorem decoderAgreesWithOpcodeTable : Obligations.DecoderAgreesWithOpcodeTable := by
  refine ⟨fun p m => ⟨?_, ?_⟩, fun w r hr r' hr' h h' => ?_⟩
  · rintro ⟨i, hi, rfl⟩
    obtain ⟨r, hr, hop⟩ := exists_row i
    exact ⟨r, hr, mnemonic_eq_of_op hr hop, (covers_iff hr p).mpr
      ⟨(decoderAcceptsExactlyLegal _).mp ⟨i, hi⟩, (op_of_decodeCommand hi).trans hop⟩⟩
  · rintro ⟨r, hr, rfl, hcovers⟩
    obtain ⟨hlegal, hop⟩ := (covers_iff hr p).mp hcovers
    obtain ⟨i, hi⟩ := (decoderAcceptsExactlyLegal _).mpr hlegal
    exact ⟨i, hi, (mnemonic_eq_of_op hr ((op_of_decodeCommand hi).symm.trans hop)).symm⟩
  · have hop := ((covers_iff hr ⟨w, 0, 0, 0⟩).mp h).2.symm.trans ((covers_iff hr' ⟨w, 0, 0, 0⟩).mp h').2
    have hdistinct : ∀ r ∈ opcodeTable, ∀ r' ∈ opcodeTable, r.op = r'.op → r = r' := by decide
    exact hdistinct r hr r' hr' hop
end Sys2Proof

namespace Sys2Proof.Machine

/-! ## The operands an opcode does not read -/

/-- Answering a command depends on it through its instruction and, where there is none, its tag. -/
theorem responseTo_congr {k k' : Command} (hdecode : decodeCommand k' = decodeCommand k) (htag : k'.tag = k.tag) :
    responseTo k' = responseTo k := by
  rw [responseTo, responseTo, answer, answer, hdecode, htag]

/-- Settles O7: the decoder binds C on MULDIV only, and B on AVGU, AVGS, CEILDIV and MULDIV only. -/
theorem unreadOperandsIgnored : Obligations.UnreadOperandsIgnored := by
  refine fun k b c => ⟨fun hop => responseTo_congr ?_ rfl, fun hop => responseTo_congr ?_ rfl⟩
  · simp only [decodeCommand]
    split
    · rfl
    split
    case h_5 => contradiction
    all_goals rfl
  · simp only [List.mem_cons, List.not_mem_nil, or_false, not_or] at hop
    obtain ⟨h0, h1, h2, h4⟩ := hop
    simp only [decodeCommand]
    split
    · rfl
    split
    case h_1 | h_2 | h_3 | h_5 => contradiction
    all_goals rfl

/-! ## The assembler (R90, R91) -/

/-- The operands of a line are those it lists, in order, and 0 for an omitted one; DIVU puts 1 between its two. -/
theorem asmOperands_eq_ok_iff {op : AsmOp} {zs : List Int} {a b c : Int} :
    asmOperands op zs = .ok (a, b, c) ↔
      (if op = .divu then zs.length = 2 else 1 ≤ zs.length ∧ zs.length ≤ 3) ∧ zs.getD 0 0 = a ∧
      (if op = .divu then 1 else zs.getD 1 0) = b ∧ (if op = .divu then zs.getD 1 0 else zs.getD 2 0) = c := by
  by_cases hop : op = .divu
  · subst hop
    rcases zs with _ | ⟨x, _ | ⟨y, _ | ⟨z, zs⟩⟩⟩ <;> simp [asmOperands]
  · rcases zs with _ | ⟨x, _ | ⟨y, _ | ⟨z, _ | ⟨w, zs⟩⟩⟩⟩ <;> simp [asmOperands, hop]

/-- Only the mnemonics with a roundUp argument take `.UP` (R84, R90). -/
theorem AsmOp.opcode_spec (op : AsmOp) : op.opcode.toNat < 0x0C ∧
    (op.takesUp = true → op.opcode.toNat ∈ [0x04, 0x05, 0x06, 0x07, 0x0A]) := by
  cases op <;> decide

/-- Each mnemonic's opcode is that of its row, MULDIV's for DIVU (R84, R91). -/
theorem asmNames_row : ∀ entry ∈ asmNames, ∃ r ∈ opcodeTable, r.op = entry.2.opcode ∧
    r.mnemonic = if entry.2 = .divu then "MULDIV" else entry.1 := by decide

/-- What the assembler emits is legal (R88): it has refused `.UP` where RND must be 0. -/
theorem assemble_legal {l : AsmLine} {p : Packet} (h : assemble l = .ok p) :
    p.toCommand.legal = true ∧ p.toCommand.op = l.op.opcode ∧ p.toCommand.rnd = l.up ∧
      p.toCommand.tag.toNat = l.tag.getD 0 := by
  obtain ⟨hup, htag, a, b, c, -, -, -, -, rfl⟩ := assemble_ok_iff.mp h
  obtain ⟨hop, hround⟩ := l.op.opcode_spec
  rw [Command.legal_iff, toCommand_commandWord]
  refine ⟨⟨rfl, hop, fun hrnd => hround ?_⟩, rfl, rfl, ?_⟩
  · simpa [show l.up = true from hrnd] using hup
  · exact Nat.mod_eq_of_lt (by omega)

/-- What the assembler emits decodes to the mnemonic of the line. -/
theorem assemble_decodes {l : AsmLine} {p : Packet} (h : assemble l = .ok p) {name : String}
    (hname : (name, l.op) ∈ asmNames) :
    ∃ i, decodePacket p = .ok i ∧ i.mnemonic = if l.op = .divu then "MULDIV" else name := by
  obtain ⟨hlegal, hop, -⟩ := assemble_legal h
  obtain ⟨i, hi⟩ := (decoderAcceptsExactlyLegal _).mpr hlegal
  obtain ⟨r, hr, hrow, hmnemonic⟩ := asmNames_row _ hname
  exact ⟨i, hi, (mnemonic_eq_of_op hr ((op_of_decodeCommand hi).symm.trans (hop.trans hrow.symm))).symm.trans hmnemonic⟩

/-- A property of 0 and of 1 holds of the three operands of a line exactly when it holds of those it lists. -/
theorem asmOperands_forall_iff {R : Int → Prop} (h0 : R 0) (h1 : R 1) (op : AsmOp) (zs : List Int) :
    (∃ a b c, asmOperands op zs = .ok (a, b, c) ∧ R a ∧ R b ∧ R c) ↔
      (if op = .divu then zs.length = 2 else 1 ≤ zs.length ∧ zs.length ≤ 3) ∧ ∀ z ∈ zs, R z := by
  simp only [asmOperands_eq_ok_iff, and_assoc, exists_and_left, exists_eq_left', and_congr_right_iff]
  intro hlen
  split at hlen <;> rcases zs with _ | ⟨x, _ | ⟨y, _ | ⟨z, _ | ⟨w, zs⟩⟩⟩⟩ <;> simp_all
  omega

/-- The lines the assembler takes. -/
theorem assemble_accepts_iff (l : AsmLine) : (∃ p, assemble l = .ok p) ↔
    (l.up = true → l.op.takesUp = true) ∧ l.tag.getD 0 ≤ 255 ∧
    (if l.op = .divu then l.operands.length = 2 else 1 ≤ l.operands.length ∧ l.operands.length ≤ 3) ∧
    ∀ z ∈ l.operands, minS ≤ z ∧ z ≤ maxW := by
  have hup : (l.up && !l.op.takesUp) = false ↔ (l.up = true → l.op.takesUp = true) := by
    cases l.up <;> simp
  rw [← asmOperands_forall_iff (by decide) (by decide), ← hup]
  simp only [assemble_ok_iff]
  constructor
  · rintro ⟨p, hline, htag, a, b, c, hoperands, ha, hb, hc, -⟩
    exact ⟨hline, htag, a, b, c, hoperands, ha, hb, hc⟩
  · rintro ⟨hline, htag, a, b, c, hoperands, ha, hb, hc⟩
    exact ⟨_, hline, htag, a, b, c, hoperands, ha, hb, hc, rfl⟩

/-- Settles O9: an accepted line has one form, which gives its packet; the lines with that form are counted by
`asmOperands_forall_iff`. -/
theorem assemblerEmitsOnlyLegalCommands : Obligations.AssemblerEmitsOnlyLegalCommands := by
  refine ⟨fun l hup hrnd => ?_, fun l p h => ?_, assemble_accepts_iff⟩
  · rw [assemble, hup, hrnd]
    rfl
  · obtain ⟨hlegal, -, hrnd, htag⟩ := assemble_legal h
    obtain ⟨-, -, a, b, c, hoperands, -, -, -, rfl⟩ := assemble_ok_iff.mp h
    obtain ⟨-, rfl, rfl, rfl⟩ := asmOperands_eq_ok_iff.mp hoperands
    refine ⟨hlegal, hrnd, htag, fun name => assemble_decodes h, fun hop => ?_, fun hop => ?_⟩
    · simp only [if_neg hop, and_self]
    · simp only [if_pos hop, true_and, and_true]
      rfl
end Sys2Proof.Machine

/-! # Steps go on, and the invariant of a running core (10_state.md R44 to R47, 60_exceptions.md R226) -/

namespace Sys2Proof.Machine

/-! ## Answering a command -/

theorem tag_of_decodeCommand {k : Command} {i : Instr} (h : decodeCommand k = .ok i) : k.tag = i.tag := by
  have hcmd := decodeCommand_eq_ok_iff.mp h
  cases i <;> exact congrArg Command.tag hcmd

/-- Every command, legal or not, has a response, which carries its tag; answering the command presents it (R86, R89). -/
theorem answer_completes (k : Command) :
    ∃ r, r.tag = k.tag ∧ responseTo k = some r ∧ ∀ s, answer k s = .next (s.present r) := by
  suffices h : ∃ r : Response, r.tag = k.tag ∧ ∀ s, answer k s = .next (s.present r) by
    obtain ⟨r, htag, hanswer⟩ := h
    exact ⟨r, htag, by rw [responseTo, hanswer]; rfl, hanswer⟩
  cases hdecode : decodeCommand k with
  | ok i =>
    obtain ⟨r, hexec, htag, -⟩ := everyInstructionCompletesPurely i
    exact ⟨r, htag.trans (tag_of_decodeCommand hdecode).symm, fun s => by simp only [answer, hdecode, hexec]⟩
  | error e => exact ⟨_, rfl, answer_of_decode_error hdecode⟩

/-- Settles O25: a step either waits or answers a command, and every command has a response. -/
theorem everyStepGoesOn : Obligations.EveryStepGoesOn := by
  intro s
  rw [step]
  split
  · rename_i k _
    obtain ⟨r, -, -, hanswer⟩ := answer_completes k
    exact ⟨_, hanswer _⟩
  · exact ⟨_, rfl⟩

/-- Settles O26: an instruction that goes on has presented its response. -/
theorem instructionChangesOnlyResponse : Obligations.InstructionChangesOnlyResponse := by
  intro i s t h
  rw [exec_eq_respond_outcome, respond_next_iff] at h
  obtain ⟨r, -, rfl⟩ := h
  exact ⟨rfl, rfl, rfl, rfl, rfl, rfl, rfl⟩

/-! ## The invariant -/

/-- Settles O15: nothing is pending, and the countdowns are at 0, which is below any LAT_MAX. -/
theorem resetHasQueueInvariant : Obligations.ResetHasQueueInvariant where
  fits := Nat.zero_le _
  ready := nofun
  presented := nofun
  rspBound := Nat.succ_pos _
  cmdBound := Nat.succ_pos _

/-- A response that is held after the edge was presented before it and did not transfer. -/
theorem afterEdge_rsp_eq_some_iff {s : State} {r : Response} :
    s.afterEdge.rsp = some r ↔ s.pins.rst = false ∧ s.rspTransfers = false ∧ s.rsp = some r := by
  cases hrst : s.pins.rst <;> cases htake : s.rspTransfers <;> simp [hrst, htake]

/-- Where a response stays, the head of PEND stays, and commands join behind it. -/
theorem pendAfterEdge_of_held {s : State} (hrst : s.pins.rst = false) (htake : s.rspTransfers = false) :
    s.pendAfterEdge = s.pend ++ if s.cmdTransfers then [s.pins.cmd.toCommand] else [] := by
  rw [pendAfterEdge_of_noReset hrst, htake]
  rfl

/-- The response presented after a step is `Exec` of the head of PEND (R46, R47). -/
theorem presented_of_step {s t : State} (hinv : ∀ r, s.rsp = some r → ∃ k ks, s.pend = k :: ks ∧ responseTo k = some r)
    (hstep : step s = .next t) (r : Response) (hr : t.rsp = some r) :
    ∃ k ks, t.pend = k :: ks ∧ responseTo k = some r := by
  obtain ⟨k, r', hhead, hresponse, rfl⟩ | ⟨-, rfl⟩ := step_cases hstep
  · obtain ⟨-, -, ks, hpend⟩ := headToAnswer_eq_some_iff.mp hhead
    cases hr
    exact ⟨k, ks, hpend, hresponse⟩
  · rw [State.waitCycle_rsp, afterEdge_rsp_eq_some_iff] at hr
    obtain ⟨hrst, htake, hr⟩ := hr
    obtain ⟨k, ks, hpend, hresponse⟩ := hinv r hr
    have hheld := pendAfterEdge_of_held hrst htake
    rw [hpend] at hheld
    exact ⟨k, _, by rw [State.waitCycle_pend, State.afterEdge_pend, hheld]; rfl, hresponse⟩

/-- The head's delay stays below LAT_MAX at an edge (R262 item 1). -/
theorem afterEdge_rspWait_lt {s : State} (h : s.rspWait < Config.latMax) : s.afterEdge.rspWait < Config.latMax := by
  rw [State.afterEdge_rspWait]
  split
  · exact rspDelay_lt ..
  · split <;> omega

theorem waitCycle_rspWait_le (s : State) : s.waitCycle.rspWait ≤ s.rspWait := by
  rw [State.waitCycle_rspWait]
  split <;> omega

/-- Settles O14: PEND and `cmd_ready` by the edge, the response by the two ways a step can end, the countdowns by their
draws. -/
theorem stepKeepsQueueInvariant : Obligations.StepKeepsQueueInvariant := by
  intro s t hinv hstep
  obtain ⟨hpend, hready, -, -, hwait, -⟩ := step_next_frame hstep
  have hedge := afterEdge_rspWait_lt hinv.rspBound
  refine ⟨?_, ?_, presented_of_step hinv.presented hstep, ?_, ?_⟩
  · rw [hpend]
    exact pendAfterEdge_length_le_depth hinv.fits hinv.ready
  · rw [hpend, hready]
    exact pendAfterEdge_length_lt_of_ready
  · obtain ⟨k, r, -, -, rfl⟩ | ⟨-, rfl⟩ := step_cases hstep
    · exact hedge
    · exact (waitCycle_rspWait_le _).trans_lt hedge
  · rw [hwait]
    exact pauseAfterEdge_lt hinv.cmdBound

/-- Settles O18: the wires show the response that the state holds, which is `Exec` of the head of PEND. -/
theorem responseWiresCarryExecOfHead : Obligations.ResponseWiresCarryExecOfHead := by
  intro s t hinv hstep
  have hpresented := presented_of_step hinv.presented hstep
  cases hr : t.rsp with
  | none => simp [State.outputs, hr]
  | some r =>
    obtain ⟨k, ks, hpend, hresponse⟩ := hpresented r hr
    obtain ⟨r', htag, hresponse', -⟩ := answer_completes k
    obtain rfl : r = r' := Option.some.inj (hresponse.symm.trans hresponse')
    refine ⟨fun hempty => ?_, fun _ => ⟨k, ks, r, hpend, hresponse, ?_⟩⟩
    · rw [hempty] at hpend
      cases hpend
    · simp [State.outputs, hr, htag]

end Sys2Proof.Machine

/-! # Runs: the order of the responses, and the two bounds of progress (20_memory.md, 70_reset_and_hazards.md R262) -/

namespace Sys2Proof.Machine

/-! ## One step of a run -/

theorem runSteps_of_step {s t : State} (h : step s = .next t) (n : Nat) : runSteps (n + 1) s = runSteps n t := by
  rw [runSteps_succ, h]

theorem delivered_of_step {s t : State} (h : step s = .next t) (n : Nat) :
    delivered (n + 1) s = (if s.rspTransfers then s.rsp.toList else []) ++ delivered n t := by
  rw [delivered, h]

theorem accepted_of_step {s t : State} (h : step s = .next t) (n : Nat) :
    accepted (n + 1) s = (if s.cmdTransfers then [s.pins.cmd.toCommand] else []) ++ accepted n t := by
  rw [accepted, h]

/-- The input wires of the cycles to come move up by one at a step. -/
theorem pinsAt_of_step {s t : State} (h : step s = .next t) (k : Nat) : t.pinsAt k = s.pinsAt (k + 1) := by
  obtain ⟨-, -, hpins, hscript, -⟩ := step_next_frame h
  cases hs : s.script <;> cases k <;> simp [State.pinsAt, hpins, hscript, hs, List.getLast?_cons]

theorem noReset_succ_iff {s t : State} (h : step s = .next t) (n : Nat) :
    s.noReset (n + 1) ↔ s.pins.rst = false ∧ t.noReset n := by
  simp only [State.noReset, pinsAt_of_step h]
  refine ⟨fun hall => ⟨hall 0 (Nat.succ_pos n), fun k hk => hall (k + 1) (Nat.succ_lt_succ hk)⟩, fun hall k hk => ?_⟩
  cases k with
  | zero => exact hall.1
  | succ k => exact hall.2 k (Nat.lt_of_succ_lt_succ hk)

/-- A step with a head to answer and no response held: the head is answered once its delay has passed. -/
theorem step_of_head {s : State} {k : Command} {ks : List Command} (hrsp : s.afterEdge.rsp = none)
    (hpend : s.pendAfterEdge = k :: ks) :
    step s = if s.afterEdge.rspWait = 0 then answer k s.afterEdge else .next s.afterEdge.waitCycle := by
  cases hhead : s.afterEdge.headToAnswer with
  | some k' =>
    obtain ⟨-, hwait, ks', hpend'⟩ := headToAnswer_eq_some_iff.mp hhead
    obtain ⟨rfl, -⟩ := List.cons.inj (hpend'.symm.trans hpend)
    simp only [step, hhead, hwait, if_true]
  | none =>
    have hwait : s.afterEdge.rspWait ≠ 0 := fun h0 =>
      Option.some_ne_none k ((headToAnswer_eq_some_iff.mpr ⟨hrsp, h0, ks, hpend⟩).symm.trans hhead)
    simp only [step, hhead, if_neg hwait]

/-- A step while a response is held: no head is answered. -/
theorem step_of_held {s : State} {r : Response} (hrsp : s.afterEdge.rsp = some r) :
    step s = .next s.afterEdge.waitCycle := by
  have hhead : s.afterEdge.headToAnswer = none := Option.eq_none_iff_forall_ne_some.mpr fun k hk => by
    rw [(headToAnswer_eq_some_iff.mp hk).1] at hrsp
    cases hrsp
  rw [step, hhead]

/-- Settles O10: the edge leaves no response held, and the head that decodes is answered by executing it. -/
theorem stepRunsDecodedInstruction : Obligations.StepRunsDecodedInstruction := by
  refine ⟨fun s k ks i hrst hpend hrsp hdecode => ?_, fun s p i hdecode => ?_⟩
  · have hfree : s.afterEdge.rsp = none := by
      rcases hrsp with h | h <;> simp [h]
    rw [step_of_head hfree hpend, answer, hdecode]
  · have hwait : (s.placeHead p).afterEdge.rspWait = 0 := by
      simp [State.headArrives, State.rspTransfers]
    have hpend : (s.placeHead p).pendAfterEdge = p.toCommand :: s.pend.tail := by
      rw [pendAfterEdge_of_noReset rfl]
      simp [State.rspTransfers, State.cmdTransfers]
    rw [step_of_head (by simp) hpend, if_pos hwait, answer, show decodeCommand p.toCommand = .ok i from hdecode]

/-! ## Order -/

/-- At an edge without reset, what is delivered and what is then pending are what was pending and what is accepted. -/
theorem step_conserves {s t : State} (hinv : Inv s) (hrst : s.pins.rst = false) (hstep : step s = .next t) :
    (if s.rspTransfers then s.rsp.toList else []).map some ++ t.pend.map responseTo =
      s.pend.map responseTo ++ (if s.cmdTransfers then [s.pins.cmd.toCommand] else []).map responseTo := by
  obtain ⟨hpend, -⟩ := step_next_frame hstep
  rw [hpend, pendAfterEdge_of_noReset hrst, List.map_append, ← List.append_assoc]
  congr 1
  split
  · rename_i htake
    simp only [rspTransfers_of_noReset hrst, Bool.and_eq_true] at htake
    obtain ⟨r, hr⟩ := Option.isSome_iff_exists.mp htake.1
    obtain ⟨k, ks, hhead, hresponse⟩ := hinv.presented r hr
    simp [hr, hhead, hresponse]
  · rfl

/-- Settles O19, by induction on the number of edges: each edge moves the boundary between what is delivered and what is
pending. -/
theorem responsesInAcceptanceOrder : Obligations.ResponsesInAcceptanceOrder := by
  intro n
  induction n with
  | zero =>
    intro s t _ _ hrun
    cases hrun
    simp [delivered, accepted]
  | succ n ih =>
    intro s t hinv hreset hrun
    obtain ⟨u, hstep⟩ := everyStepGoesOn s
    obtain ⟨hrst, hrest⟩ := (noReset_succ_iff hstep n).mp hreset
    rw [runSteps_of_step hstep] at hrun
    have hedge := step_conserves hinv hrst hstep
    have hlater := ih u t (stepKeepsQueueInvariant s u hinv hstep) hrest hrun
    rw [delivered_of_step hstep, accepted_of_step hstep, List.map_append, List.map_append, List.append_assoc, hlater,
      ← List.append_assoc, hedge, List.append_assoc]

/-- What a run delivers is a beginning of the responses to what it held and accepted. -/
theorem delivered_isPrefix {n : Nat} {s t : State} (hinv : Inv s) (hreset : s.noReset n)
    (hrun : runSteps n s = .next t) :
    (delivered n s).map some <+: s.pend.map responseTo ++ (accepted n s).map responseTo :=
  ⟨_, responsesInAcceptanceOrder n s t hinv hreset hrun⟩

/-- Settles O20: both runs deliver a beginning of the same list. -/
theorem timingNeverChangesResponses : Obligations.TimingNeverChangesResponses := by
  intro n n' s s' t t' hinv hinv' hreset hreset' hrun hrun' hpend haccepted
  have h := delivered_isPrefix hinv hreset hrun
  have h' := delivered_isPrefix hinv' hreset' hrun'
  rw [hpend, haccepted] at h
  have hinj := Option.some_injective Response
  exact (List.prefix_or_prefix_of_prefix h h').imp (List.prefix_map_iff_of_injective hinj).mp
    (List.prefix_map_iff_of_injective hinj).mp

/-! ## A held response -/

/-- Settles O17, by induction on the number of edges: the head stays, with its response, and commands join behind it. -/
theorem responseHeldUntilTaken : Obligations.ResponseHeldUntilTaken := by
  intro n s r hr hpins
  suffices h : ∃ t, runSteps n s = .next t ∧ t.rsp = some r ∧ s.pend <+: t.pend by
    obtain ⟨t, hrun, ht, hpend⟩ := h
    exact ⟨t, hrun, ht, hpend, by simp only [State.outputs, hr, ht, and_self]⟩
  induction n generalizing s with
  | zero => exact ⟨s, rfl, hr, List.prefix_rfl⟩
  | succ n ih =>
    obtain ⟨hrst, hready⟩ := hpins 0 (Nat.succ_pos n)
    have htake : s.rspTransfers = false := by
      rw [rspTransfers_of_noReset hrst, show s.pins.rspReady = false from hready, Bool.and_false]
    have hheld := afterEdge_rsp_eq_some_iff.mpr ⟨hrst, htake, hr⟩
    have hstep := step_of_held hheld
    obtain ⟨t, hrun, ht, hpend⟩ := ih s.afterEdge.waitCycle (by rw [State.waitCycle_rsp, hheld]) fun k hk => by
      rw [pinsAt_of_step hstep]
      exact hpins (k + 1) (Nat.succ_lt_succ hk)
    refine ⟨t, by rw [runSteps_of_step hstep, hrun], ht, List.IsPrefix.trans ?_ hpend⟩
    rw [State.waitCycle_pend, State.afterEdge_pend, pendAfterEdge_of_held hrst htake]
    exact List.prefix_append _ _

/-! ## Progress -/

theorem rspTransfers_of_rsp_none {s : State} (h : s.rsp = none) : s.rspTransfers = false := by
  simp [State.rspTransfers, h]

/-- A head that waits before an edge without reset waits after it, with the delay it had. -/
theorem afterEdge_of_waiting {s : State} {k : Command} {ks : List Command} (hrst : s.pins.rst = false)
    (hrsp : s.rsp = none) (hpend : s.pend = k :: ks) :
    s.afterEdge.rsp = none ∧ s.afterEdge.rspWait = s.rspWait ∧ ∃ ks', s.pendAfterEdge = k :: ks' := by
  have hkept := rspTransfers_of_rsp_none hrsp
  have hold : s.headArrives = false := by
    simp [State.headArrives, hkept, hpend]
  have hheld := pendAfterEdge_of_held hrst hkept
  rw [hpend] at hheld
  exact ⟨by rw [State.afterEdge_rsp, hrsp, ite_self], by simp [hold, hrst], _, hheld⟩

/-- With the head's delay at `w` after the edge and no response held, the response is presented `w` cycles later. -/
theorem answered_after_delay {w : Nat} {s : State} {k : Command} {ks : List Command} (hrsp : s.afterEdge.rsp = none)
    (hpend : s.pendAfterEdge = k :: ks) (hwait : s.afterEdge.rspWait = w) (hreset : s.noReset (w + 1)) :
    ∃ t r, runSteps (w + 1) s = .next t ∧ responseTo k = some r ∧ t.rsp = some r ∧ t.pend.head? = some k := by
  induction w generalizing s ks with
  | zero =>
    obtain ⟨r, -, hresponse, hanswer⟩ := answer_completes k
    refine ⟨s.afterEdge.present r, r, ?_, hresponse, rfl, by simp [hpend]⟩
    rw [runSteps_succ, step_of_head hrsp hpend, if_pos hwait, hanswer]
    rfl
  | succ w ih =>
    have hstep : step s = .next s.afterEdge.waitCycle := by
      rw [step_of_head hrsp hpend, if_neg (by omega)]
    obtain ⟨-, hrest⟩ := (noReset_succ_iff hstep _).mp hreset
    obtain ⟨hfree, hcount, ks', hnext⟩ := afterEdge_of_waiting (s := s.afterEdge.waitCycle) (hrest 0 (Nat.succ_pos w))
      (by rw [State.waitCycle_rsp, hrsp]) (by rw [State.waitCycle_pend, State.afterEdge_pend, hpend])
    rw [runSteps_of_step hstep]
    refine ih hfree hnext ?_ hrest
    rw [hcount, State.waitCycle_rspWait, hrsp, State.afterEdge_pend, hpend, hwait]
    rfl

/-- Settles O21: the edge at which a head arrives leaves no response held, and draws a delay below LAT_MAX. -/
theorem headAnsweredWithinLatMax : Obligations.HeadAnsweredWithinLatMax := by
  intro s hinv harrives hreset
  have harrives' := harrives
  simp only [State.headArrives, Bool.and_eq_true, Bool.or_eq_true, Bool.not_eq_true'] at harrives'
  obtain ⟨hfrom, hnonempty⟩ := harrives'
  obtain ⟨k, ks, hpend⟩ := List.exists_cons_of_ne_nil (List.isEmpty_eq_false_iff.mp hnonempty)
  have hrsp : s.afterEdge.rsp = none := by
    rcases hfrom with htake | hempty
    · simp [htake]
    · refine Option.eq_none_iff_forall_ne_some.mpr fun r hr => ?_
      obtain ⟨-, -, hr⟩ := afterEdge_rsp_eq_some_iff.mp hr
      obtain ⟨_, _, hcons, -⟩ := hinv.presented r hr
      simp [hcons] at hempty
  have hbound := afterEdge_rspWait_lt hinv.rspBound
  obtain ⟨t, r, hrun, hresponse, ht, hhead⟩ := answered_after_delay hrsp hpend rfl
    fun j hj => hreset j (by omega)
  exact ⟨_, t, k, ks, r, hbound, hrun, hpend, hresponse, ht, hhead⟩

/-- The first edge of a run without reset and with room. -/
theorem edge_with_room {s t : State} {m : Nat} (hstep : step s = .next t) (hreset : s.noReset (m + 1))
    (hroom : ∀ n t, n ≤ m → runSteps (n + 1) s = .next t → t.pend.length < Config.depth) :
    s.pins.rst = false ∧ s.roomAfterEdge = true ∧ t.cmdReady = s.readyAfterEdge ∧ t.cmdWait = s.pauseAfterEdge := by
  obtain ⟨hpend, hready, -, -, hpause, -⟩ := step_next_frame hstep
  have hfirst := hroom 0 t (Nat.zero_le m) (by rw [runSteps_of_step hstep, runSteps_zero])
  rw [hpend] at hfirst
  exact ⟨hreset 0 (Nat.succ_pos m), decide_eq_true hfirst, hready, hpause⟩

/-- With a pause of `w` and room in each cycle, `cmd_ready` is 1 after `w + 1` edges. -/
theorem ready_after_pause {w : Nat} {s : State} (hwait : s.cmdWait = w) (hreset : s.noReset (w + 1))
    (hroom : ∀ n t, n ≤ w → runSteps (n + 1) s = .next t → t.pend.length < Config.depth) :
    ∃ t, runSteps (w + 1) s = .next t ∧ t.cmdReady = true := by
  induction w generalizing s with
  | zero =>
    obtain ⟨t, hstep⟩ := everyStepGoesOn s
    obtain ⟨hrst, hroomFirst, hready, -⟩ := edge_with_room hstep hreset hroom
    refine ⟨t, by rw [runSteps_of_step hstep, runSteps_zero], ?_⟩
    simp [hready, State.readyAfterEdge, hrst, hroomFirst, hwait]
  | succ w ih =>
    obtain ⟨u, hstep⟩ := everyStepGoesOn s
    obtain ⟨hrst, hroomFirst, -, hpause⟩ := edge_with_room hstep hreset hroom
    rw [runSteps_of_step hstep]
    refine ih ?_ ((noReset_succ_iff hstep _).mp hreset).2 fun n t hn hrun =>
      hroom (n + 1) t (Nat.succ_le_succ hn) (by rw [runSteps_of_step hstep, hrun])
    simp [hpause, State.pauseAfterEdge, State.readyAfterEdge, hrst, hroomFirst, hwait]

/-- Settles O22: the pause is below LAT_MAX and counts down in each cycle with room. -/
theorem readyWithinLatMaxWhileRoom : Obligations.ReadyWithinLatMaxWhileRoom := by
  intro s hwait hreset hroom
  obtain ⟨t, hrun, hready⟩ := ready_after_pause rfl (fun k hk => hreset k (by omega))
    fun n t hn => hroom n t (by omega)
  exact ⟨s.cmdWait, t, hwait, hrun, hready⟩

/-! ## The command wires -/

theorem pendAfterEdge_of_no_command {s : State} (h : s.cmdTransfers = false) :
    s.pendAfterEdge = if s.pins.rst then [] else if s.rspTransfers then s.pend.tail else s.pend := by
  simp [State.pendAfterEdge, h]

/-- With the host's next wires in the script, the command wires matter to an edge only through a transfer. -/
theorem step_of_cmd_pins {s s' : State} (hscript : s.script ≠ [])
    (hs' : ∃ v p, s' = { s with pins := { s.pins with cmdValid := v, cmd := p } }) (h : s.cmdTransfers = false)
    (h' : s'.cmdTransfers = false) : step s' = step s := by
  have hpend : s'.pendAfterEdge = s.pendAfterEdge := by
    rw [pendAfterEdge_of_no_command h, pendAfterEdge_of_no_command h']
    obtain ⟨v, p, rfl⟩ := hs'
    rfl
  obtain ⟨v, p, rfl⟩ := hs'
  have hnext (pins : HostPins) : s.script.headD pins = s.script.headD s.pins := by
    obtain ⟨_, _, hcons⟩ := List.exists_cons_of_ne_nil hscript
    rw [hcons, List.headD_cons, List.headD_cons]
  have hedge : State.afterEdge { s with pins := { s.pins with cmdValid := v, cmd := p } } = s.afterEdge := by
    simp only [State.afterEdge, State.readyAfterEdge, State.roomAfterEdge, State.pauseAfterEdge, State.headArrives,
      hpend, hnext]
    rfl
  rw [step, step, hedge]

/-- Settles O23: a command transfers only with both `cmd_valid` and `cmd_ready`. -/
theorem commandWiresIgnoredWithoutTransfer : Obligations.CommandWiresIgnoredWithoutTransfer := by
  intro s v p hscript
  refine ⟨fun hready => ?_, fun hvalid => ?_⟩
  · exact step_of_cmd_pins hscript ⟨v, p, rfl⟩ (by simp [State.cmdTransfers, hready])
      (by simp [State.cmdTransfers, hready])
  · exact step_of_cmd_pins hscript ⟨s.pins.cmdValid, p, rfl⟩ (by simp [State.cmdTransfers, hvalid])
      (by simp [State.cmdTransfers, hvalid])

end Sys2Proof.Machine

/-! # Status codes, signed division and ISNEG (00_scope.md R16, 40_elementary.md R106, 60_exceptions.md R220, R224) -/

namespace Sys2Proof.Machine

/-- Settles O29: five codes, and five statuses. -/
theorem statusCodesOfTable : Obligations.StatusCodesOfTable := by
  refine ⟨⟨rfl, rfl, rfl, rfl, rfl⟩, fun st => by cases st <;> rfl, fun c hc => ⟨?_, fun st hst => ?_⟩⟩
  · unfold Status.ofCode
    split
    case h_6 => rfl
    all_goals omega
  · subst hst
    cases st <;> revert hc <;> decide

/-- Settles O35: the divisor is the first test of both operations. -/
theorem zeroDivisorsFail : Obligations.ZeroDivisorsFail := fun _ _ _ _ _ => ⟨rfl, rfl⟩

/-! ## ISNEG -/

theorem s256_neg_iff_getLsbD (x : Word) : s256 x < 0 ↔ x.getLsbD 255 = true := by
  rw [← decide_eq_true_iff (p := s256 x < 0), s256, ← BitVec.msb_eq_toInt, BitVec.msb_eq_getLsbD_last]

/-- Settles O36: the sign of a pattern is its top bit. -/
theorem isnegIsTopBit : Obligations.IsnegIsTopBit := by
  refine fun tag x s => ⟨?_, s256_neg_iff_getLsbD x⟩
  rw [exec_eq_respond_outcome, outcome, isneg, boolToWord, respond_some]
  simp only [decide_eq_true_eq]
  rfl

/-! ## Signed division -/

theorem abs_tdiv (a b : Int) : |a.tdiv b| = |a| / |b| := by
  rw [Int.abs_eq_natAbs, Int.natAbs_tdiv, Int.abs_eq_natAbs, Int.abs_eq_natAbs]
  exact Int.natCast_ediv _ _

/-- A truncated quotient that is not 0 is positive exactly when its operands have one sign. -/
theorem tdiv_pos_iff {a b : Int} (h : a.tdiv b ≠ 0) : 0 < a.tdiv b ↔ (0 < a ↔ 0 < b) := by
  have hsign := Int.sign_tdiv a b
  split at hsign
  · exact absurd (Int.sign_eq_zero_iff_zero.mp hsign) h
  have ha : a ≠ 0 := fun h0 => h (by rw [h0, Int.zero_tdiv])
  have hb : b ≠ 0 := fun h0 => h (by rw [h0, Int.tdiv_zero])
  rw [← Int.sign_eq_one_iff_pos, hsign]
  rcases ha.lt_or_gt with ha | ha <;> rcases hb.lt_or_gt with hb | hb <;>
    simp [Int.sign_eq_neg_one_of_neg, Int.sign_eq_one_of_pos, ha, hb, ha.not_gt, hb.not_gt]

/-- A quotient of SWords leaves the range of SWords only at MINS / −1. -/
theorem tdiv_inRange {a b : Int} (hb : b ≠ 0) (hlo : minS ≤ a) (hhi : a ≤ maxS) (h : ¬(a = minS ∧ b = -1)) :
    minS ≤ a.tdiv b ∧ a.tdiv b ≤ maxS := by
  simp only [minS, maxS] at *
  by_cases hone : |b| = 1
  · rcases (abs_eq one_pos.le).mp hone with rfl | rfl
    · rw [Int.tdiv_one]
      exact ⟨hlo, hhi⟩
    · rw [Int.tdiv_neg, Int.tdiv_one]
      omega
  · have htwo : 2 ≤ |b| := by
      have := abs_pos.mpr hb
      omega
    have habs : |a| ≤ 2 ^ 255 := abs_le.mpr ⟨hlo, by omega⟩
    have hhalf : |a.tdiv b| ≤ 2 ^ 254 := by
      rw [abs_tdiv]
      exact Int.ediv_le_of_le_mul (by omega) (by omega)
    rw [abs_le] at hhalf
    omega

/-- Settles O31: the magnitudes divide, the signs multiply, and the one quotient out of range is `2^255`. -/
theorem signedDivisionTruncates : Obligations.SignedDivisionTruncates := by
  refine fun a b => ⟨?_, fun hb => ?_⟩
  · rintro rfl
    rfl
  · have hb' : s256 b ≠ 0 := by
      intro h
      exact hb (by rw [← u256_s256 b, h]; rfl)
    by_cases hwrap : s256 a = minS ∧ s256 b = -1
    · refine ⟨minS, ?_, (if_pos hwrap).mpr rfl⟩
      rw [hwrap.1, hwrap.2]
      rfl
    · obtain ⟨hlo, hhi⟩ := tdiv_inRange hb' (s256_ge a) (s256_le a) hwrap
      refine ⟨_, sdiv_exact hb' hlo hhi, ?_⟩
      exact (if_neg hwrap).mpr ⟨abs_tdiv _ _, tdiv_pos_iff⟩

end Sys2Proof.Machine

/-! # The wide product, and the two informative constructions (41_muldiv.md R120, R121, R123) -/

namespace Sys2Proof.Machine

/-! ## The wide product -/

/-- A product of two Words leaves the high word below MAXW (R120). -/
theorem mul512_high_le (x y : Word) : (mul512 x y).high.toNat ≤ 2 ^ 256 - 2 := by
  have hprod : x.toNat * y.toNat ≤ (2 ^ 256 - 1) * (2 ^ 256 - 1) :=
    Nat.mul_le_mul (Nat.le_sub_one_of_lt x.isLt) (Nat.le_sub_one_of_lt y.isLt)
  rw [mul512_high_toNat]
  omega

theorem mul512_low_eq_mulW (x y : Word) : (mul512 x y).low = mulW x y := by
  apply BitVec.eq_of_toNat_eq
  rw [mul512_low_toNat, mulW_eq, BitVec.toNat_mul]

/-- Settles O37: the two words are the quotient and the remainder of the product by `2^256`. -/
theorem wideProductIsExact : Obligations.WideProductIsExact :=
  ⟨fun x y => ⟨mul512_value x y, mul512_high_toNat x y, mul512_low_eq_mulW x y, mul512_high_le x y⟩, rfl⟩

/-! ## The Chinese-remainder construction -/

/-- The product modulo `2^256 − 1` is the sum of its two words, less `2^256 − 1` where the sum reaches it. -/
theorem mul_mod_maxW (x y : Word) : x.toNat * y.toNat % (2 ^ 256 - 1) =
    if (mul512 x y).high.toNat + (mul512 x y).low.toNat < 2 ^ 256 - 1 then
      (mul512 x y).high.toNat + (mul512 x y).low.toNat
    else (mul512 x y).high.toNat + (mul512 x y).low.toNat - (2 ^ 256 - 1) := by
  have hvalue := mul512_value x y
  have hhigh := mul512_high_le x y
  have hlow := (mul512 x y).low.isLt
  rw [WidePair.value] at hvalue
  split <;> omega

/-- The high word is the difference of the residues modulo `2^256 − 1` and modulo `2^256`, with a borrow where the sum
of the two words wrapped (R121). -/
theorem sub_low_of_residue {mm high low : Word} (hhigh : high.toNat ≤ 2 ^ 256 - 2)
    (hmm : mm.toNat = if high.toNat + low.toNat < 2 ^ 256 - 1 then high.toNat + low.toNat
      else high.toNat + low.toNat - (2 ^ 256 - 1)) :
    (if mm.toNat < low.toNat then subW (subW mm low) 1 else subW mm low) = high := by
  have hlow := low.isLt
  have hone : (1 : Word).toNat = 1 := rfl
  apply BitVec.eq_of_toNat_eq
  split <;> simp only [subW_eq, BitVec.toNat_sub, hone] <;> split at hmm <;> omega

/-- Settles O38: the two residues determine both words. -/
theorem crtProductIsExact : Obligations.CrtProductIsExact := by
  intro x y
  have hmm : (u256 (x.toNat * y.toNat % (2 ^ 256 - 1) : Nat)).toNat = x.toNat * y.toNat % (2 ^ 256 - 1) :=
    u256_natCast_toNat_of_lt (by omega)
  rw [mul512Crt, ← mul512_low_eq_mulW, sub_low_of_residue (mul512_high_le x y) (hmm.trans (mul_mod_maxW x y))]

/-! ## The lowest set bit -/

/-- An odd number and its complement to a power of two share only the lowest bit. -/
theorem odd_and_two_pow_sub {a n : Nat} (hodd : a % 2 = 1) (hlt : a < 2 ^ n) : a &&& (2 ^ n - a) = 1 := by
  have hn : 0 < n := Nat.pos_of_ne_zero fun h0 => by
    rw [h0] at hlt
    omega
  have hcomplement : 2 ^ n - a = 2 ^ n - ((a - 1) + 1) := by omega
  apply Nat.eq_of_testBit_eq
  intro i
  rw [Nat.testBit_and, hcomplement, Nat.testBit_two_pow_sub_succ (by omega)]
  cases i with
  | zero => simp [Nat.testBit_zero, hodd, hn, show ¬(a - 1) % 2 = 1 by omega]
  | succ i => simpa [Nat.testBit_succ, show (a - 1) / 2 = a / 2 by omega] using fun h _ => h

/-- Every divisor is a power of two, which `d & −d` gives, times an odd number (R123). -/
theorem exists_odd_part {d : Word} (hd : d ≠ 0) :
    ∃ k o, k < 256 ∧ o % 2 = 1 ∧ d.toNat = 2 ^ k * o ∧ (d &&& subW 0 d).toNat = 2 ^ k := by
  have hpos := toNat_pos_of_ne_zero hd
  have hlt := d.isLt
  obtain ⟨k, o, hodd, hdo⟩ := Nat.exists_eq_two_pow_mul_odd hpos.ne'
  rw [Nat.odd_iff] at hodd
  have hle : 2 ^ k ≤ d.toNat := hdo ▸ Nat.le_mul_of_pos_right _ (by omega)
  have hk : k < 256 := (Nat.pow_lt_pow_iff_right (by norm_num)).mp (hle.trans_lt hlt)
  have hpow : 2 ^ 256 = 2 ^ k * 2 ^ (256 - k) := by rw [← pow_add, Nat.add_sub_cancel' hk.le]
  have ho : o < 2 ^ (256 - k) := by
    rw [hdo, hpow] at hlt
    exact Nat.lt_of_mul_lt_mul_left hlt
  refine ⟨k, o, hk, hodd, hdo, ?_⟩
  have hneg : (subW 0 d).toNat = 2 ^ k * (2 ^ (256 - k) - o) := by
    rw [Nat.mul_sub, ← hpow, ← hdo, subW_eq, BitVec.toNat_sub]
    simp only [BitVec.ofNat_eq_ofNat, BitVec.toNat_ofNat]
    omega
  have hshift (n : Nat) : 2 ^ k * n = n <<< k := by rw [Nat.shiftLeft_eq, mul_comm]
  rw [BitVec.toNat_and, hneg, hdo, hshift, hshift, ← Nat.shiftLeft_and_distrib, odd_and_two_pow_sub hodd ho,
    Nat.one_shiftLeft]

/-! ## The inverse of an odd word -/

/-- `inv` inverts `d` in the `n` lowest bits. -/
def InvertsBits (n : Nat) (d inv : Word) : Prop := ∃ e, d * inv = 1 + 2 ^ n * e

theorem invertsBits_of_toNat {n : Nat} {d inv : Word} (h : d.toNat * inv.toNat % 2 ^ n = 1) :
    InvertsBits n d inv := by
  have hsplit := Nat.mod_add_div (d.toNat * inv.toNat) (2 ^ n)
  rw [h] at hsplit
  refine ⟨BitVec.ofNat 256 (d.toNat * inv.toNat / 2 ^ n), ?_⟩
  calc d * inv = BitVec.ofNat 256 (d.toNat * inv.toNat) := by simp [BitVec.ofNat_mul]
    _ = BitVec.ofNat 256 (1 + 2 ^ n * (d.toNat * inv.toNat / 2 ^ n)) := congrArg _ hsplit.symm
    _ = 1 + 2 ^ n * BitVec.ofNat 256 (d.toNat * inv.toNat / 2 ^ n) := by
      rw [BitVec.ofNat_add, BitVec.ofNat_mul, BitVec.ofNat_pow]
      rfl

/-- The seed of R123 is right in the four lowest bits. -/
theorem invertsBits_seed {d : Word} (hodd : d.toNat % 2 = 1) : InvertsBits 4 d (mulW 3 d ^^^ 2) := by
  apply invertsBits_of_toNat
  have hseed : (mulW 3 d ^^^ 2).toNat % 2 ^ 4 = 3 * (d.toNat % 16) % 16 ^^^ 2 := by
    have hthree : (mulW 3 d).toNat % 2 ^ 4 = 3 * (d.toNat % 16) % 16 := by
      rw [mulW_eq, BitVec.toNat_mul, show (3 : Word).toNat = 3 from rfl]
      omega
    rw [BitVec.toNat_xor, Nat.xor_mod_two_pow, hthree]
    rfl
  rw [Nat.mul_mod, hseed]
  have hlt : d.toNat % 16 < 16 := Nat.mod_lt _ (by norm_num)
  have hlow : d.toNat % 16 % 2 = 1 := by omega
  generalize d.toNat % 16 = n at hlt hlow
  revert n
  decide

/-- A doubling step: from `d · inv = 1 + m·e` the next product is `1 − (m·e)^2`. -/
theorem invertsBits_invStep {n : Nat} {d inv : Word} (h : InvertsBits n d inv) :
    InvertsBits (n + n) d (invStep d inv) := by
  obtain ⟨e, he⟩ := h
  refine ⟨-(e * e), ?_⟩
  calc d * invStep d inv = d * inv * (2 - d * inv) := by
        simp only [invStep, mulW_eq, subW_eq]
        ring
    _ = 1 + 2 ^ (n + n) * -(e * e) := by
        rw [he, pow_add]
        ring

/-- Six doublings of four right bits give 256 of them (R123). -/
theorem mul_inverseOdd {d : Word} (hodd : d.toNat % 2 = 1) : d * inverseOdd d = 1 := by
  have h : InvertsBits 256 d (inverseOdd d) :=
    invertsBits_invStep (n := 128) <| invertsBits_invStep (n := 64) <| invertsBits_invStep (n := 32) <|
      invertsBits_invStep (n := 16) <| invertsBits_invStep (n := 8) <| invertsBits_invStep (n := 4) <|
        invertsBits_seed hodd
  obtain ⟨e, he⟩ := h
  have hzero : (2 : Word) ^ 256 = 0 := by decide +kernel
  rw [he, hzero, zero_mul, add_zero]

/-! ## The division -/

/-- Folding the high word of a multiple of `2^k` into the low one divides it by `2^k` (R123). -/
theorem fold_high_word {k : Nat} (hk : k ≤ 256) (w : Nat) :
    2 ^ k * w % 2 ^ 256 / 2 ^ k + 2 ^ k * w / 2 ^ 256 * (2 ^ 256 / 2 ^ k) = w := by
  have hpos : 0 < 2 ^ k := by positivity
  have hpow : 2 ^ 256 = 2 ^ k * 2 ^ (256 - k) := by rw [← pow_add, Nat.add_sub_cancel' hk]
  rw [hpow, Nat.mul_mod_mul_left, Nat.mul_div_mul_left _ _ hpos, Nat.mul_div_cancel_left _ hpos,
    Nat.mul_div_cancel_left _ hpos, Nat.mod_add_div']

/-- Settles O39: the dividend less its remainder is the quotient times the odd part, times the power of two; the fold
takes away the power, and the inverse the odd part. -/
theorem inverseDivisionIsExact : Obligations.InverseDivisionIsExact := by
  intro p d hhigh
  have hd : d ≠ 0 := BitVec.toNat_ne.mpr (Nat.ne_of_gt (Nat.zero_lt_of_lt hhigh))
  obtain ⟨k, o, hk, hodd, hdo, ht⟩ := exists_odd_part hd
  have hdividend : p.value - p.value % d.toNat = 2 ^ k * (o * (p.value / d.toNat)) := by
    rw [← mul_assoc, ← hdo]
    have := Nat.div_add_mod p.value d.toNat
    omega
  have hpart : d.toNat / 2 ^ k = o := by rw [hdo, Nat.mul_div_cancel_left _ (by positivity)]
  have hinv : BitVec.ofNat 256 o * inverseOdd (BitVec.ofNat 256 o) = 1 := mul_inverseOdd (by
    rw [BitVec.toNat_ofNat]
    omega)
  simp only [div512Inverse, div512, ht, hdividend, fold_high_word hk.le, hpart, u256_natCast, Prod.mk.injEq, and_true]
  rw [mulW_eq, BitVec.ofNat_mul, mul_assoc, mul_comm, mul_assoc, mul_comm (inverseOdd _), hinv, mul_one]

end Sys2Proof.Machine

/-! # WADLN over unbounded integers (43_wad_ln.md R160, R163 to R165) -/

namespace Sys2Proof.Machine

theorem wadLn_of_neg {x : Int} (h : x < 0) : wadLn lnConst x = some (.fail .undefined) := if_pos h

/-- Settles O47: the first two tests of R160. -/
theorem wadlnOutsideDomain : Obligations.WadlnOutsideDomain := by
  refine fun tag x s => ⟨fun h => ?_, fun h => ?_⟩
  · rw [exec_eq_respond_outcome, outcome, wadLn_of_neg h]
    rfl
  · rw [exec_eq_respond_outcome, outcome, h]
    rfl

/-! ## Horner evaluations -/

/-- A bound on a Horner evaluation from `A` at an argument of at most `2^97`, which at most doubles the accumulator. -/
def hornerBound (cs : List Int) (A : Int) : Int := cs.foldl (fun B c => 2 * B + |c|) A

theorem le_hornerBound (cs : List Int) {A : Int} (hA : 0 ≤ A) : A ≤ hornerBound cs A := by
  induction cs generalizing A with
  | nil => exact le_rfl
  | cons c cs ih =>
    have hc := abs_nonneg c
    exact (by omega : A ≤ 2 * A + |c|).trans (ih (by omega))

/-- A Horner evaluation whose bound is far from the range does not wrap, and keeps to the bound. -/
theorem foldl_hornerStep_exact {v : Int} (hv : |v| ≤ 2 ^ 97) (cs : List Int) {acc A : Int} (hacc : |acc| ≤ A)
    (hfit : hornerBound cs A ≤ 2 ^ 150) :
    cs.foldl (hornerStep v) acc = cs.foldl (hornerExact v) acc ∧ |cs.foldl (hornerStep v) acc| ≤ hornerBound cs A := by
  induction cs generalizing acc A with
  | nil => exact ⟨rfl, hacc⟩
  | cons c cs ih =>
    have hA : 0 ≤ A := (abs_nonneg acc).trans hacc
    have hc := abs_nonneg c
    have hnext : 2 * A + |c| ≤ 2 ^ 150 := (le_hornerBound cs (by omega)).trans hfit
    have hcle := abs_le.mp (le_refl |c|)
    obtain ⟨heq, hlo, hhi⟩ := hornerStep_bounds (c := c) (B := 2 * A) hv hacc (by omega)
      (by unfold maxS; omega) (by unfold minS; omega) (by unfold maxS; omega)
    have hstep := ih (acc := hornerStep v acc c) (A := 2 * A + |c|) (abs_le.mpr ⟨by omega, by omega⟩) hfit
    rwa [List.foldl_cons, List.foldl_cons, show hornerExact v acc c = hornerStep v acc c from heq.symm]

/-! ## The quotient -/

/-- R165: the numerator is computed without wrapping. -/
theorem lnNumerator_exact {v : Int} (hv : 0 ≤ v ∧ v ≤ 2 ^ 97) :
    lnNumerator lnConst v =
      [lnConst.p1, lnConst.p2, lnConst.p3, lnConst.p4, lnConst.p5].foldl (hornerExact v) (v + lnConst.p0) * v -
        lnConst.p6 * 2 ^ 96 ∧ |lnNumerator lnConst v| ≤ 2 ^ 208 := by
  have hfirst : addS v lnConst.p0 = v + lnConst.p0 :=
    addS_exact (by simp only [minS, lnConst]; omega) (by simp only [maxS, lnConst]; omega)
  obtain ⟨heq, hle⟩ := foldl_hornerStep_exact (v := v) (abs_le.mpr ⟨by omega, hv.2⟩)
    [lnConst.p1, lnConst.p2, lnConst.p3, lnConst.p4, lnConst.p5] (acc := v + lnConst.p0) (A := 2 ^ 102)
    (abs_le.mpr ⟨by simp only [lnConst]; omega, by simp only [lnConst]; omega⟩) (by decide)
  have hbound := hle.trans (show _ ≤ (2 : Int) ^ 110 by decide)
  rw [heq] at hbound
  rw [lnNumerator, hfirst, heq]
  generalize List.foldl (hornerExact v) (v + lnConst.p0)
    [lnConst.p1, lnConst.p2, lnConst.p3, lnConst.p4, lnConst.p5] = p at hbound
  have hprod : |p * v| ≤ 2 ^ 110 * 2 ^ 97 := by
    rw [abs_mul]
    exact mul_le_mul hbound (abs_le.mpr ⟨by omega, hv.2⟩) (abs_nonneg _) (by norm_num)
  rw [abs_le] at hprod
  have hmul : mulS p v = p * v := mulS_exact (by unfold minS; omega) (by unfold maxS; omega)
  have hsub : subS (p * v) (lnConst.p6 * 2 ^ 96) = p * v - lnConst.p6 * 2 ^ 96 :=
    subS_exact (by simp only [minS, lnConst]; omega) (by simp only [maxS, lnConst]; omega)
  rw [hmul, hsub]
  exact ⟨rfl, abs_le.mpr ⟨by simp only [lnConst]; omega, by simp only [lnConst]; omega⟩⟩

/-- The divisor is no less than its constant term, since its other terms are not negative. -/
theorem lnDenominator_ge {v : Int} (hv : 0 ≤ v ∧ v ≤ 2 ^ 97) : lnConst.q6 ≤ lnDenominator lnConst v := by
  obtain ⟨heq, hpos⟩ := foldl_hornerStep_pos (m := 110) hv
    [lnConst.q1, lnConst.q2, lnConst.q3, lnConst.q4, lnConst.q5] (acc := v + lnConst.q0)
    (by simp only [lnConst]; omega) (by decide) (by decide)
  rw [heq] at hpos
  have hterms := Int.ediv_nonneg (mul_nonneg hpos.le hv.1) (show (0 : Int) ≤ 2 ^ 96 by norm_num)
  rw [(lnDenominator_pos hv).1]
  exact le_add_of_nonneg_left hterms

/-- A dividend below `2^208` leaves a quotient below `2^110`: the divisor is at least `2^98` (R165). -/
theorem lnQuotient_abs_le {v : Int} (hv : 0 ≤ v ∧ v ≤ 2 ^ 97) :
    |(lnNumerator lnConst v).tdiv (lnDenominator lnConst v)| ≤ 2 ^ 110 := by
  have hq : 2 ^ 98 ≤ lnDenominator lnConst v := (show (2 : Int) ^ 98 ≤ lnConst.q6 by decide).trans (lnDenominator_ge hv)
  rw [abs_tdiv, abs_of_pos (by omega : 0 < lnDenominator lnConst v)]
  have hp := (lnNumerator_exact hv).2
  exact Int.ediv_le_of_le_mul (by omega) (by omega)

/-! ## The result -/

/-- R165: the last steps do not wrap, and the result is an SWord. -/
theorem lnRescale_exact {r k : Int} (hr : |r| ≤ 2 ^ 110) (hk : -96 ≤ k ∧ k ≤ 158) :
    lnRescale lnConst r k = (r * lnConst.s1 + lnConst.s2 * k + lnConst.s3) / 2 ^ 174 ∧
      minS ≤ lnRescale lnConst r k ∧ lnRescale lnConst r k ≤ maxS := by
  rw [abs_le] at hr
  have hmul1 : mulS r lnConst.s1 = r * lnConst.s1 := by
    apply mulS_exact <;> simp only [minS, maxS, lnConst] <;> omega
  have hmul2 : mulS lnConst.s2 k = lnConst.s2 * k := by
    apply mulS_exact <;> simp only [minS, maxS, lnConst] <;> omega
  have hadd1 : addS (r * lnConst.s1) (lnConst.s2 * k) = r * lnConst.s1 + lnConst.s2 * k := by
    apply addS_exact <;> simp only [minS, maxS, lnConst] <;> omega
  have hadd2 : addS (r * lnConst.s1 + lnConst.s2 * k) lnConst.s3 = r * lnConst.s1 + lnConst.s2 * k + lnConst.s3 := by
    apply addS_exact <;> simp only [minS, maxS, lnConst] <;> omega
  rw [lnRescale, hmul1, hmul2, hadd1, hadd2, sar_def]
  refine ⟨rfl, ?_, ?_⟩ <;> simp only [minS, maxS, lnConst] <;> omega

/-- WADLN of a positive operand is the formula over unbounded integers (R164, R165). -/
theorem wadLn_of_pos {x : Word} (hx : 0 < s256 x) :
    wadLn lnConst (s256 x) = some (.ok (u256 (lnUnbounded (s256 x))) 0) ∧
      minS ≤ lnUnbounded (s256 x) ∧ lnUnbounded (s256 x) ≤ maxS := by
  obtain ⟨hnat, -, hlog⟩ := toNat_pos_and_log_lt hx
  obtain ⟨hlow, hhigh⟩ := lnNormalize_range hx
  have hk := lnExponent_s256 x
  have hscale := lnNormalize_eq_scaleDown hx
  generalize hv : lnNormalize (s256 x) (lnExponent (s256 x)) = v at hlow hhigh hscale
  have hrange : 0 ≤ v ∧ v ≤ 2 ^ 97 := ⟨by omega, hhigh.le⟩
  have hquot := lnQuotient_abs_le hrange
  obtain ⟨hq, hqpos⟩ := lnDenominator_pos hrange
  obtain ⟨hrescale, hlo, hhi⟩ := lnRescale_exact hquot (k := lnExponent (s256 x)) (by omega)
  have hvalue : lnUnbounded (s256 x) =
      lnRescale lnConst ((lnNumerator lnConst v).tdiv (lnDenominator lnConst v)) (lnExponent (s256 x)) := by
    rw [hrescale, hq, (lnNumerator_exact hrange).1, hscale, hk, lnUnbounded, show (s256 x).toNat = x.toNat by omega]
  rw [hvalue]
  refine ⟨?_, hlo, hhi⟩
  rw [abs_le] at hquot
  have hsdiv := sdiv_exact hqpos.ne' (a := lnNumerator lnConst v) (by unfold minS; omega) (by unfold maxS; omega)
  rw [wadLn, if_neg hx.not_gt, if_neg hx.ne']
  simp only [hv, hsdiv]

/-- Settles O50: every step of R164 stays in range on the normalized operand. -/
theorem wadlnExactOverIntegers : Obligations.WadlnExactOverIntegers := by
  intro tag x s hx
  obtain ⟨hvalue, hlo, hhi⟩ := wadLn_of_pos hx
  refine ⟨?_, s256_u256_of_inRange hlo hhi⟩
  rw [exec_eq_respond_outcome, outcome, hvalue]
  rfl

end Sys2Proof.Machine

/-! # WADEXP over unbounded integers (44_wad_exp.md R180, R181, R184 to R186) -/

namespace Sys2Proof.Machine

theorem wadExp_of_le_lo {x : Int} (h : x ≤ expConst.lo) : wadExp expConst x = some (.ok 0 0) := if_pos h

theorem wadExp_of_hi_le {x : Int} (h : expConst.hi ≤ x) : wadExp expConst x = some (.fail .overflow) := by
  have hlo : ¬x ≤ expConst.lo := fun hle => absurd (h.trans hle) (by decide)
  rw [wadExp, if_neg hlo, if_pos h]

/-- Settles O51: the first two tests of R180. -/
theorem wadexpOutsideDomain : Obligations.WadexpOutsideDomain := by
  refine fun tag x s => ⟨fun h => ?_, fun h => ?_⟩
  · rw [exec_eq_respond_outcome, outcome, wadExp_of_le_lo h]
    rfl
  · rw [exec_eq_respond_outcome, outcome, wadExp_of_hi_le h]
    rfl

/-! ## The range reduction and the divisor -/

theorem expReducedExact_abs_le_half (x : Int) : |expReducedExact x| ≤ 2 ^ 95 :=
  (expReducedExact_abs_le x).trans (by decide)

/-- Settles O52: half of `LN2_96` is below `0.35 · 2^96`, and the two ends are computed. -/
theorem wadexpReducesOperand : Obligations.WadexpReducesOperand := by
  refine ⟨fun x hlo hhi => ?_, by decide, by decide⟩
  obtain ⟨hklo, hkhi⟩ := expExponentExact_range hlo hhi
  have hv := abs_le.mp (expReducedExact_abs_le x)
  have hln2 : 100 * (expConst.ln2 / 2) < 35 * 2 ^ 96 := by decide
  exact ⟨expBase_exact hlo hhi, expExponent_exact hlo hhi, hklo, hkhi, expReduce_exact hlo hhi, by omega, by omega⟩

/-- Settles O53: at every reduced argument. -/
theorem wadexpDivisorPositive : Obligations.WadexpDivisorPositive := fun x _ _ =>
  (expDenominator_pos (expReducedExact_abs_le_half x)).2

/-! ## The numerator -/

/-- R184's `y` over unbounded integers. -/
def expInnerExact (v : Int) : Int := hornerExact v (v + expConst.e0) expConst.e1

/-- R184's numerator over unbounded integers. -/
def expNumeratorExact (v : Int) : Int :=
  hornerExact (expInnerExact v) (expInnerExact v + v - expConst.e2) expConst.e3 * v + expConst.e4 * 2 ^ 96

/-- R184's denominator over unbounded integers. -/
def expDenominatorExact (v : Int) : Int :=
  [expConst.f1, -expConst.f2, expConst.f3, -expConst.f4, expConst.f5].foldl (hornerExact v) (v - expConst.f0)

theorem expDenominator_exact {v : Int} (hv : |v| ≤ 2 ^ 95) :
    expDenominator expConst v = expDenominatorExact v ∧ 0 < expDenominatorExact v := by
  obtain ⟨heq, hpos⟩ := expDenominator_pos hv
  rw [heq] at hpos
  exact ⟨heq, hpos⟩

/-- The quotient of R184 over unbounded integers. -/
def expQuotientExact (v : Int) : Int := (expNumeratorExact v).tdiv (expDenominatorExact v)

theorem expUnbounded_eq (x : Int) : expUnbounded x =
    expQuotientExact (expReducedExact x) * expConst.sexp / 2 ^ (195 - expExponentExact x).toNat := rfl

/-- R185: `y` does not wrap, and stays near `E1`. -/
theorem expInner_exact {v : Int} (hv : |v| ≤ 2 ^ 95) :
    expInner expConst v = expInnerExact v ∧ expConst.e1 - 2 ^ 100 ≤ expInnerExact v ∧
      expInnerExact v ≤ expConst.e1 + 2 ^ 100 := by
  have hv' := abs_le.mp hv
  have hfirst : addS v expConst.e0 = v + expConst.e0 := by
    apply addS_exact <;> simp only [minS, maxS, expConst] <;> omega
  have hacc : |v + expConst.e0| ≤ 2 ^ 101 := by
    rw [abs_le]
    simp only [expConst]
    omega
  obtain ⟨heq, hlo, hhi⟩ := hornerStep_bounds (c := expConst.e1) (B := 2 ^ 100) hv hacc (by norm_num)
    (by decide) (by decide) (by decide)
  have hinner : expInner expConst v = hornerStep v (v + expConst.e0) expConst.e1 := by rw [expInner, hfirst, hornerStep]
  rw [expInnerExact, hornerExact, ← heq]
  exact ⟨hinner, hlo, hhi⟩

theorem expInnerExact_abs_le {v : Int} (hv : |v| ≤ 2 ^ 95) :
    |expInnerExact v| ≤ 2 ^ 106 ∧ |expInnerExact v + v - expConst.e2| ≤ 2 ^ 106 := by
  obtain ⟨-, hlo, hhi⟩ := expInner_exact hv
  have hv' := abs_le.mp hv
  simp only [abs_le, expConst] at *
  omega

/-- R185: the numerator is computed without wrapping. -/
theorem expNumerator_exact {v : Int} (hv : |v| ≤ 2 ^ 95) : expNumerator expConst v = expNumeratorExact v := by
  have hv' := abs_le.mp hv
  obtain ⟨hinner, -⟩ := expInner_exact hv
  obtain ⟨hy, hs⟩ := expInnerExact_abs_le hv
  have hy' := abs_le.mp hy
  have hadd : addS (expInnerExact v) v = expInnerExact v + v := by
    apply addS_exact <;> simp only [minS, maxS] <;> omega
  have hsub : subS (expInnerExact v + v) expConst.e2 = expInnerExact v + v - expConst.e2 := by
    apply subS_exact <;> simp only [minS, maxS, expConst] <;> omega
  obtain ⟨heq, hlo, hhi⟩ := hornerStep_bounds (c := expConst.e3) (B := 2 ^ 116) hy hs (by norm_num)
    (by decide) (by decide) (by decide)
  have hp : |hornerStep (expInnerExact v) (expInnerExact v + v - expConst.e2) expConst.e3| ≤ 2 ^ 117 := by
    rw [abs_le]
    simp only [expConst] at *
    omega
  have hprod :
      |hornerStep (expInnerExact v) (expInnerExact v + v - expConst.e2) expConst.e3 * v| ≤ 2 ^ 117 * 2 ^ 95 := by
    rw [abs_mul]
    exact mul_le_mul hp hv (abs_nonneg _) (by norm_num)
  rw [abs_le] at hprod
  rw [expNumerator, hinner, hadd, hsub, expNumeratorExact, hornerExact, ← heq]
  change addS (mulS (hornerStep _ _ _) v) _ = _
  rw [mulS_exact, addS_exact] <;> simp only [minS, maxS, expConst] at * <;> omega

end Sys2Proof.Machine

namespace Sys2Proof.Machine

/-! ## The range of the quotient

The quotient is compared with the one of the polynomials that R184 rounds, at `t = v / 2^96`. -/

/-- The polynomial that `y` rounds. -/
def expInnerPoly (t : ℚ) : ℚ := (2 ^ 96 * t + expConst.e0) * t + expConst.e1

/-- The polynomial that the numerator rounds, in the `2^96` base. -/
def expNumeratorPoly (t : ℚ) : ℚ :=
  ((expInnerPoly t + 2 ^ 96 * t - expConst.e2) * (expInnerPoly t / 2 ^ 96) + expConst.e3) * t + expConst.e4

/-- A Horner step without rounding. -/
def hornerPoly (t a : ℚ) (c : Int) : ℚ := a * t + c

/-- The polynomial that the denominator rounds. -/
def expDenominatorPoly (t : ℚ) : ℚ :=
  [expConst.f1, -expConst.f2, expConst.f3, -expConst.f4, expConst.f5].foldl (hornerPoly t) (2 ^ 96 * t - expConst.f0)

/-! ### The polynomials at a reduced argument -/

theorem expNumeratorPoly_pos {t : ℚ} (ht : -1 / 2 ≤ t) : 2 ^ 13 < expNumeratorPoly t := by
  obtain ⟨u, hu, rfl⟩ : ∃ u : ℚ, 0 ≤ u ∧ t = u - 1 / 2 := ⟨t + 1 / 2, by linarith, by ring⟩
  rw [← sub_pos]
  simp only [expNumeratorPoly, expInnerPoly, expConst]
  push_cast
  ring_nf
  positivity

/-- An upper bound, exact to one unit, of the reduced arguments of the operands with the exponent 195. -/
def expArgMax : Int := 11274100950663547361347922004

/-- The scaled quotient, with room for the roundings, is below `2^256`, and below `2^255` up to the largest operand: in
the distance from the upper end of `t` the difference is a polynomial without negative coefficients. -/
theorem expPoly_lt {t : ℚ} {n : ℕ} (h : n = 256 ∧ t ≤ 1 / 2 ∨ n = 255 ∧ t ≤ expArgMax / 2 ^ 96) :
    expConst.sexp * (2 ^ 96 * (expNumeratorPoly t + 2 ^ 13)) < 2 ^ n * (expDenominatorPoly t - 2) := by
  have hdist (τ : ℚ) (hτ : t ≤ τ) : ∃ u : ℚ, 0 ≤ u ∧ t = τ - u := ⟨τ - t, by linarith, by ring⟩
  rw [← sub_pos]
  simp only [expNumeratorPoly, expInnerPoly, expDenominatorPoly, hornerPoly, List.foldl_cons, List.foldl_nil, expConst]
  rcases h with ⟨rfl, ht⟩ | ⟨rfl, ht⟩
  · obtain ⟨u, hu, rfl⟩ := hdist _ ht
    push_cast
    ring_nf
    positivity
  · obtain ⟨u, hu, rfl⟩ := hdist _ ht
    rw [expArgMax]
    push_cast
    ring_nf
    positivity

/-! ### The roundings -/

theorem cast_ediv_near (z : Int) : |((z / 2 ^ 96 : Int) : ℚ) - z / 2 ^ 96| ≤ 1 := by
  have hlo : (2 ^ 96 * (z / 2 ^ 96 : Int) : ℚ) ≤ z := by
    have : 2 ^ 96 * (z / 2 ^ 96) ≤ z := by omega
    exact_mod_cast this
  have hhi : (z : ℚ) < 2 ^ 96 * (z / 2 ^ 96 : Int) + 2 ^ 96 := by
    have : z < 2 ^ 96 * (z / 2 ^ 96) + 2 ^ 96 := by omega
    exact_mod_cast this
  rw [abs_le]
  constructor <;> linarith

theorem abs_arg_le {v : Int} (hv : |v| ≤ 2 ^ 95) : |(v : ℚ) / 2 ^ 96| ≤ 1 / 2 := by
  have hv' : |(v : ℚ)| ≤ 2 ^ 95 := by exact_mod_cast hv
  rw [abs_div, abs_of_pos (by norm_num : (0 : ℚ) < 2 ^ 96)]
  linarith

/-- A Horner step does not amplify an error of 2: it halves it and rounds once. -/
theorem hornerExact_near {v acc : Int} (c : Int) {a : ℚ} (hv : |v| ≤ 2 ^ 95) (h : |acc - a| ≤ 2) :
    |hornerExact v acc c - hornerPoly (v / 2 ^ 96) a c| ≤ 2 := by
  have hround := cast_ediv_near (acc * v)
  have hhalf : |(acc - a) * (v / 2 ^ 96 : ℚ)| ≤ 2 * (1 / 2) := by
    rw [abs_mul]
    exact mul_le_mul h (abs_arg_le hv) (abs_nonneg _) (by norm_num)
  calc |(hornerExact v acc c : ℚ) - hornerPoly (v / 2 ^ 96) a c|
      = |(((acc * v / 2 ^ 96 : Int) : ℚ) - (acc * v : Int) / 2 ^ 96) + (acc - a) * (v / 2 ^ 96)| := by
        rw [hornerExact, hornerPoly]
        push_cast
        ring_nf
    _ ≤ 1 + 2 * (1 / 2) := (abs_add_le _ _).trans (add_le_add hround hhalf)
    _ = 2 := by norm_num

theorem foldl_hornerExact_near {v : Int} (hv : |v| ≤ 2 ^ 95) (cs : List Int) {acc : Int} {a : ℚ} (h : |acc - a| ≤ 2) :
    |cs.foldl (hornerExact v) acc - cs.foldl (hornerPoly (v / 2 ^ 96)) a| ≤ 2 := by
  induction cs generalizing acc a with
  | nil => exact h
  | cons c cs ih => exact ih (hornerExact_near c hv h)

theorem expDenominator_near {v : Int} (hv : |v| ≤ 2 ^ 95) :
    |expDenominatorExact v - expDenominatorPoly (v / 2 ^ 96)| ≤ 2 := by
  refine foldl_hornerExact_near hv _ ?_
  rw [mul_div_cancel₀ _ (by norm_num)]
  norm_num

theorem expInner_near {v : Int} (hv : |v| ≤ 2 ^ 95) : |expInnerExact v - expInnerPoly (v / 2 ^ 96)| ≤ 2 := by
  refine hornerExact_near expConst.e1 hv ?_
  rw [mul_div_cancel₀ _ (by norm_num)]
  norm_num

/-- Two factors of at most `2^106` that share an error of at most 2 give a product, in the `2^96` base, with an error
below `2^13`. -/
theorem abs_product_error_le {y z d : ℚ} (hy : |y| ≤ 2 ^ 106) (hz : |z| ≤ 2 ^ 106) (hd : |d| ≤ 2) :
    |(z * y - (z - d) * (y - d)) / 2 ^ 96| ≤ 2 ^ 13 - 1 := by
  have hsum : |z + y - d| ≤ 2 ^ 106 + 2 ^ 106 + 2 := by
    rw [abs_le] at *
    constructor <;> linarith
  have hprod : |d * (z + y - d)| ≤ 2 * (2 ^ 106 + 2 ^ 106 + 2) := by
    rw [abs_mul]
    exact mul_le_mul hd hsum (abs_nonneg _) (by norm_num)
  rw [show z * y - (z - d) * (y - d) = d * (z + y - d) by ring, abs_div, abs_of_pos (by norm_num : (0 : ℚ) < 2 ^ 96),
    div_le_iff₀ (by norm_num)]
  linarith

/-- The error of the numerator's last factor, times an argument of at most `2^95`. -/
theorem expNumerator_near {v : Int} (hv : |v| ≤ 2 ^ 95) :
    |expNumeratorExact v - 2 ^ 96 * expNumeratorPoly (v / 2 ^ 96)| ≤ 2 ^ 96 * 2 ^ 13 := by
  have hinner := expInner_near hv
  obtain ⟨hy, hz⟩ := expInnerExact_abs_le hv
  rw [expNumeratorExact, expNumeratorPoly, hornerExact, mul_div_cancel₀ _ (by norm_num)]
  generalize expInnerPoly (v / 2 ^ 96) = p at hinner
  generalize expInnerExact v = y at hinner hy hz
  have hround := cast_ediv_near ((y + v - expConst.e2) * y)
  have herror := abs_product_error_le (y := y) (z := (y + v - expConst.e2 : Int)) (by exact_mod_cast hy)
    (by exact_mod_cast hz) hinner
  have hfactor :
      |(((y + v - expConst.e2) * y / 2 ^ 96 : Int) : ℚ) - (p + v - expConst.e2) * (p / 2 ^ 96)| ≤ 2 ^ 13 := by
    calc |(((y + v - expConst.e2) * y / 2 ^ 96 : Int) : ℚ) - (p + v - expConst.e2) * (p / 2 ^ 96)|
        = |((((y + v - expConst.e2) * y / 2 ^ 96 : Int) : ℚ) - ((y + v - expConst.e2) * y : Int) / 2 ^ 96) +
            ((y + v - expConst.e2 : Int) * y - ((y + v - expConst.e2 : Int) - (y - p)) * (y - (y - p))) / 2 ^ 96| := by
          push_cast
          ring_nf
      _ ≤ 1 + (2 ^ 13 - 1) := (abs_add_le _ _).trans (add_le_add hround herror)
      _ = 2 ^ 13 := by norm_num
  have hv' : |(v : ℚ)| ≤ 2 ^ 95 := by exact_mod_cast hv
  generalize (y + v - expConst.e2) * y / 2 ^ 96 = f at hfactor
  calc |(((f + expConst.e3) * v + expConst.e4 * 2 ^ 96 : Int) : ℚ) -
        2 ^ 96 * (((p + v - expConst.e2) * (p / 2 ^ 96) + expConst.e3) * (v / 2 ^ 96) + expConst.e4)|
      = |(f - (p + v - expConst.e2) * (p / 2 ^ 96)) * v| := by
        push_cast
        ring_nf
    _ = |f - (p + v - expConst.e2) * (p / 2 ^ 96)| * |(v : ℚ)| := abs_mul _ _
    _ ≤ 2 ^ 13 * 2 ^ 95 := mul_le_mul hfactor hv' (abs_nonneg _) (by norm_num)
    _ ≤ 2 ^ 96 * 2 ^ 13 := by norm_num

/-! ### The quotient -/

theorem expNumeratorExact_pos {v : Int} (hv : |v| ≤ 2 ^ 95) : 0 < expNumeratorExact v := by
  have hnear := abs_le.mp (expNumerator_near hv)
  have harg := abs_le.mp (abs_arg_le hv)
  have hpoly := expNumeratorPoly_pos (t := v / 2 ^ 96) (by linarith)
  have : (0 : ℚ) < expNumeratorExact v := by linarith
  exact_mod_cast this

theorem expQuotient_scaled_lt {v : Int} {n : ℕ} (hv : |v| ≤ 2 ^ 95) (h : n = 256 ∨ n = 255 ∧ v ≤ expArgMax) :
    expConst.sexp * expNumeratorExact v < 2 ^ n * expDenominatorExact v := by
  have hnum := abs_le.mp (expNumerator_near hv)
  have hden := abs_le.mp (expDenominator_near hv)
  have harg := abs_le.mp (abs_arg_le hv)
  have hpoly := expPoly_lt (t := v / 2 ^ 96) (n := n) (h.imp (fun hn => ⟨hn, harg.2⟩) fun ⟨hn, hle⟩ => ⟨hn, by
    have : (v : ℚ) ≤ expArgMax := by exact_mod_cast hle
    linarith⟩)
  have hsexp : (0 : ℚ) < expConst.sexp := by exact_mod_cast (by decide : 0 < expConst.sexp)
  have : (expConst.sexp * expNumeratorExact v : ℚ) < 2 ^ n * expDenominatorExact v := by
    calc (expConst.sexp * expNumeratorExact v : ℚ)
        ≤ expConst.sexp * (2 ^ 96 * (expNumeratorPoly (v / 2 ^ 96) + 2 ^ 13)) := by
          apply mul_le_mul_of_nonneg_left _ hsexp.le
          linarith
      _ < 2 ^ n * (expDenominatorPoly (v / 2 ^ 96) - 2) := hpoly
      _ ≤ 2 ^ n * expDenominatorExact v := by
          apply mul_le_mul_of_nonneg_left _ (by positivity)
          linarith
  exact_mod_cast this
/-! ## The result -/

/-- The largest operand of each exponent is reduced to at most `expArgMax` where the exponent is 195. -/
theorem expReducedExact_le_argMax {x : Int} (hhi : x < expConst.hi) (hk : expExponentExact x = 195) :
    expReducedExact x ≤ expArgMax := by
  have hbase := expBaseExact_bracket x
  rw [expReducedExact, hk]
  simp only [expConst, expArgMax] at *
  omega

/-- The quotient at a reduced argument, before the last shift: not negative, below `2^256`, and below `2^255` at the
exponent 195 (R183, R185). -/
theorem expQuotientExact_range {x : Int} (hhi : x < expConst.hi) :
    0 ≤ expQuotientExact (expReducedExact x) ∧
    expQuotientExact (expReducedExact x) * expConst.sexp < 2 ^ 256 ∧
    (expExponentExact x = 195 → expQuotientExact (expReducedExact x) * expConst.sexp < 2 ^ 255) := by
  have hv := expReducedExact_abs_le_half x
  have hden := (expDenominator_exact hv).2
  have hnum := expNumeratorExact_pos hv
  have hsexp : 0 < expConst.sexp := by decide
  rw [expQuotientExact, Int.tdiv_eq_ediv_of_nonneg hnum.le]
  have hscaled {n : ℕ} (h : n = 256 ∨ n = 255 ∧ expReducedExact x ≤ expArgMax) :
      expNumeratorExact (expReducedExact x) / expDenominatorExact (expReducedExact x) * expConst.sexp < 2 ^ n := by
    have hlt := expQuotient_scaled_lt hv h
    have hle := Int.ediv_mul_le (expNumeratorExact (expReducedExact x)) hden.ne'
    refine lt_of_mul_lt_mul_right (lt_of_le_of_lt ?_ hlt) hden.le
    rw [mul_comm _ expConst.sexp, mul_assoc]
    exact mul_le_mul_of_nonneg_left hle hsexp.le
  exact ⟨Int.ediv_nonneg hnum.le hden.le, hscaled (.inl rfl),
    fun hk => hscaled (.inr ⟨rfl, expReducedExact_le_argMax hhi hk⟩)⟩

/-- The last step on a quotient that is not negative (R183). -/
theorem expRescale_exact {r k : Int} (hr : 0 ≤ r) (hwide : r * expConst.sexp < 2 ^ 256)
    (hnarrow : r * expConst.sexp / 2 ^ (195 - k).toNat < 2 ^ 255) :
    expRescale expConst r k = r * expConst.sexp / 2 ^ (195 - k).toNat := by
  have hprod : 0 ≤ r * expConst.sexp := mul_nonneg hr (by decide)
  obtain ⟨m, hm⟩ := Int.eq_ofNat_of_zero_le hprod
  rw [hm] at hwide hnarrow ⊢
  have hword : (mulW (u256 r) (u256 expConst.sexp)).toNat = m := by
    rw [mulW_eq, ← u256_mul, hm, u256_natCast_toNat_of_lt (by exact_mod_cast hwide)]
  have hshift : (shr (mulW (u256 r) (u256 expConst.sexp)) (195 - k).toNat).toNat = m / 2 ^ (195 - k).toNat := by
    rw [shr_toNat, hword]
  rw [expRescale, s256_eq_toNat (by rw [hshift]; exact_mod_cast hnarrow), hshift]
  push_cast
  rfl

/-- Between the thresholds the formula's value is an SWord and not negative: at an exponent below 195 the shift halves
the scaled quotient at least once. -/
theorem expUnbounded_range {x : Int} (hlo : expConst.lo < x) (hhi : x < expConst.hi) :
    0 ≤ expUnbounded x ∧ expUnbounded x < 2 ^ 255 := by
  obtain ⟨hr, hwide, htop⟩ := expQuotientExact_range hhi
  obtain ⟨-, hk⟩ := expExponentExact_range hlo hhi
  rw [expUnbounded_eq]
  refine ⟨Int.ediv_nonneg (mul_nonneg hr (by decide)) (by positivity), ?_⟩
  rcases hk.lt_or_eq with hlt | heq
  · have htwo : (2 : Int) ^ 1 ≤ 2 ^ (195 - expExponentExact x).toNat :=
      pow_le_pow_right₀ (by norm_num) (by omega)
    exact Int.ediv_lt_of_lt_mul (by positivity) (by omega)
  · have hshift : (195 - expExponentExact x).toNat = 0 := by omega
    rw [hshift, pow_zero, Int.ediv_one]
    exact htop heq

/-- WADEXP between the thresholds is the formula over unbounded integers (R184, R185). -/
theorem wadExp_of_domain {x : Int} (hlo : expConst.lo < x) (hhi : x < expConst.hi) :
    wadExp expConst x = some (.ok (u256 (expUnbounded x)) 0) := by
  have hv := expReducedExact_abs_le_half x
  obtain ⟨hden, hpos⟩ := expDenominator_exact hv
  obtain ⟨hr, hwide, -⟩ := expQuotientExact_range hhi
  have hnarrow := (expUnbounded_range hlo hhi).2
  rw [expUnbounded_eq] at hnarrow ⊢
  have hfit : expQuotientExact (expReducedExact x) ≤ maxS := by
    simp only [expConst, maxS] at hwide ⊢
    omega
  have hsdiv : sdiv (expNumerator expConst (expReducedExact x)) (expDenominator expConst (expReducedExact x)) =
      some (expQuotientExact (expReducedExact x)) := by
    rw [expNumerator_exact hv, hden]
    exact sdiv_exact hpos.ne' ((show minS ≤ 0 by decide).trans hr) hfit
  rw [wadExp, if_neg hlo.not_ge, if_neg hhi.not_ge]
  simp only [expBase_exact hlo hhi, expExponent_exact hlo hhi, expReduce_exact hlo hhi, hsdiv,
    expRescale_exact hr hwide hnarrow]

/-- Settles O54: the range reduction, the numerator and the denominator do not wrap, and the scaled quotient fits. -/
theorem wadexpExactOverIntegers : Obligations.WadexpExactOverIntegers := by
  intro tag x s hlo hhi
  obtain ⟨hnonneg, hlt⟩ := expUnbounded_range hlo hhi
  refine ⟨?_, hnonneg, hlt, s256_u256_of_inRange ?_ (Int.le_sub_one_of_lt hlt)⟩
  · rw [exec_eq_respond_outcome, outcome, wadExp_of_domain hlo hhi]
    rfl
  · unfold minS
    omega

end Sys2Proof.Machine

/-! # The cube roots (45_cube_roots.md R202 to R207) -/

namespace Sys2Proof.Machine

/-! ## One refinement -/

theorem isFloorCbrt_nthRoot (v : Nat) : IsFloorCbrt v (Nat.nthRoot 3 v) :=
  ⟨(Nat.le_nthRoot_iff (by norm_num)).mp le_rfl, Nat.lt_pow_nthRoot_add_one (by norm_num) v⟩

/-- A refinement never falls below the floor of the root (R204): it is the refinement of `Nat.nthRoot`. -/
theorem le_newtonExact {v y f : Nat} (hy : 0 < y) (hf : f ^ 3 ≤ v) : f ≤ newtonExact v y := by
  have hlt : v < (newtonExact v y + 1) ^ 3 := by
    have h := Nat.nthRoot.lt_pow_go_succ_aux (a := v) (n := 2) hy.ne'
    rwa [pow_two, add_comm (v / _)] at h
  exact Nat.le_of_lt_succ (lt_of_pow_lt_pow_left' 3 (hf.trans_lt hlt))

/-- A refinement rounds down twice. -/
theorem newtonExact_mul_le (v y : Nat) : 3 * newtonExact v y * (y * y) ≤ 2 * y * (y * y) + v := by
  have hthird : 3 * newtonExact v y ≤ 2 * y + v / (y * y) := Nat.mul_div_le _ 3
  calc 3 * newtonExact v y * (y * y) ≤ (2 * y + v / (y * y)) * (y * y) := Nat.mul_le_mul_right _ hthird
    _ = 2 * y * (y * y) + v / (y * y) * (y * y) := add_mul _ _ _
    _ ≤ 2 * y * (y * y) + v := Nat.add_le_add_left (Nat.div_mul_le_self _ _) _

/-! ## The refinements converge -/

/-- `y` is no less than `f`, and exceeds `f + 1` by at most one part in `m`. -/
def RootWithin (m f y : Nat) : Prop := f ≤ y ∧ m * y ≤ (m + 1) * (f + 1)

/-- The excess over a `g` whose cube exceeds the value: from `y` at least `g`, a refinement leaves at most the square of
the old excess, over `y`. -/
theorem excess_squared {v g y z m : Nat} (hg : 0 < g) (hy : g ≤ y) (hv : v < g ^ 3)
    (hstep : 3 * z * (y * y) ≤ 2 * y * (y * y) + v) (hm : m * y ≤ (m + 1) * g) : m ^ 2 * z ≤ (m ^ 2 + 1) * g := by
  obtain ⟨d, rfl⟩ := Nat.exists_eq_add_of_le hy
  zify at *
  have hcube : ((z : Int) - g) * (3 * (g + d) ^ 2) ≤ d ^ 2 * (3 * (g + d)) := by nlinarith
  have hpos : (0 : Int) < g + d := by positivity
  have hexcess : ((z : Int) - g) * (g + d) ≤ d ^ 2 := by
    refine le_of_mul_le_mul_right ?_ (by positivity : (0 : Int) < 3 * (g + d))
    linarith
  have hmd : (m : Int) * d ≤ g := by linarith
  have hscaled : (m : Int) ^ 2 * (z - g) * (g + d) ≤ g * (g + d) := by
    calc (m : Int) ^ 2 * (z - g) * (g + d) = (m : Int) ^ 2 * ((z - g) * (g + d)) := by ring
      _ ≤ (m : Int) ^ 2 * (d : Int) ^ 2 := mul_le_mul_of_nonneg_left hexcess (by positivity)
      _ = ((m : Int) * d) ^ 2 := by ring
      _ ≤ (g : Int) ^ 2 := pow_le_pow_left₀ (by positivity) hmd 2
      _ ≤ g * (g + d) := by nlinarith
  have := le_of_mul_le_mul_right hscaled hpos
  linarith

/-- Above the root a refinement squares the relative excess; from the floor itself it does not pass the floor plus 1. -/
theorem rootWithin_newtonExact {v f y m : Nat} (hf : IsFloorCbrt v f) (hf2 : 2 ≤ f) (h : RootWithin m f y) :
    RootWithin (m ^ 2) f (newtonExact v y) := by
  obtain ⟨hle, hlt⟩ := hf
  obtain ⟨hlow, hhigh⟩ := h
  refine ⟨le_newtonExact (by omega) hle, ?_⟩
  have hstep := newtonExact_mul_le v y
  generalize newtonExact v y = z at hstep
  rcases hlow.eq_or_lt with rfl | habove
  · have hz : z ≤ f + 1 := by
      by_contra hz
      have : 3 * (f + 2) * (f * f) ≤ 3 * z * (f * f) := Nat.mul_le_mul_right _ (by omega)
      nlinarith
    nlinarith
  · exact excess_squared (by omega) habove hlt hstep hhigh

/-- Each refinement squares the bound on the relative excess. -/
theorem rootWithin_iterate {v f y m : Nat} (hf : IsFloorCbrt v f) (hf2 : 2 ≤ f) (n : Nat) (h : RootWithin m f y) :
    RootWithin (m ^ 2 ^ n) f ((newtonExact v)^[n] y) := by
  induction n with
  | zero => simpa using h
  | succ n ih =>
    rw [Function.iterate_succ_apply', pow_succ, pow_mul]
    exact rootWithin_newtonExact hf hf2 ih

/-! ## The seed, and seven refinements -/

/-- The seed of R201 against the power of two in it: `1.26` is about the cube root of 2. -/
theorem cbrtSeed_linear {l : Nat} (hl : 21 ≤ l) :
    (4 + l % 3) * 2 ^ (l / 3) ≤ 4 * cbrtSeed l ∧ 2 * cbrtSeed l ≤ (2 + l % 3) * 2 ^ (l / 3) := by
  have hpow : 2 ^ 7 ≤ 2 ^ (l / 3) := Nat.pow_le_pow_right (by norm_num) (by omega)
  have hrem : l % 3 = 0 ∨ l % 3 = 1 ∨ l % 3 = 2 := by omega
  rw [cbrtSeed]
  generalize 2 ^ (l / 3) = p at hpow
  rcases hrem with h | h | h <;> rw [h] <;> omega

/-- A value from `2^21` on against the power of two in its seed. -/
theorem pow_seed_bounds {v : Nat} (hv : v ≠ 0) :
    2 ^ (Nat.log 2 v % 3) * (2 ^ (Nat.log 2 v / 3)) ^ 3 ≤ v ∧
      v < 2 * 2 ^ (Nat.log 2 v % 3) * (2 ^ (Nat.log 2 v / 3)) ^ 3 := by
  have hsplit : 2 ^ Nat.log 2 v = 2 ^ (Nat.log 2 v % 3) * (2 ^ (Nat.log 2 v / 3)) ^ 3 := by
    rw [← pow_mul, ← pow_add, mul_comm, Nat.mod_add_div]
  have hlow := Nat.pow_log_le_self 2 hv
  have hhigh := Nat.lt_pow_succ_log_self (b := 2) (by norm_num) v
  rw [pow_succ, mul_comm, hsplit, ← mul_assoc] at hhigh
  exact ⟨hsplit ▸ hlow, hhigh⟩

/-- The seed lies between `2/3` and `13/10` of the root. -/
theorem cbrtSeed_near {v f : Nat} (hv : 2 ^ 21 ≤ v) (hf : IsFloorCbrt v f) :
    2 * (f + 1) ≤ 3 * cbrtSeed (Nat.log 2 v) ∧ 10 * cbrtSeed (Nat.log 2 v) ≤ 13 * (f + 1) := by
  obtain ⟨hlow, hhigh⟩ := pow_seed_bounds (v := v) (by omega)
  have hl : 21 ≤ Nat.log 2 v := Nat.le_log_of_pow_le (by norm_num) hv
  obtain ⟨hseedLow, hseedHigh⟩ := cbrtSeed_linear hl
  have hpow : 2 ^ 7 ≤ 2 ^ (Nat.log 2 v / 3) := Nat.pow_le_pow_right (by norm_num) (by omega)
  obtain ⟨hle, hlt⟩ := hf
  have hrem : Nat.log 2 v % 3 = 0 ∨ Nat.log 2 v % 3 = 1 ∨ Nat.log 2 v % 3 = 2 := by omega
  generalize 2 ^ (Nat.log 2 v / 3) = p at *
  generalize cbrtSeed (Nat.log 2 v) = y at *
  generalize Nat.log 2 v % 3 = r at *
  have hcubeLow := Nat.pow_le_pow_left hseedLow 3
  have hcubeHigh := Nat.pow_le_pow_left hseedHigh 3
  have habove : 20 * f < 29 * y := by
    apply lt_of_pow_lt_pow_left' 3
    simp only [mul_pow] at *
    rcases hrem with rfl | rfl | rfl <;> omega
  have hbelow : 10 * y < 13 * (f + 1) := by
    apply lt_of_pow_lt_pow_left' 3
    simp only [mul_pow] at *
    rcases hrem with rfl | rfl | rfl <;> omega
  have hlarge : 4 * p ≤ 4 * y := (Nat.mul_le_mul_right p (Nat.le_add_right 4 _)).trans hseedLow
  omega

/-- One refinement of the seed brings the excess below a third. -/
theorem rootWithin_first {v f : Nat} (hv : 2 ^ 21 ≤ v) (hf : IsFloorCbrt v f) :
    RootWithin 3 f (newtonExact v (cbrtSeed (Nat.log 2 v))) := by
  obtain ⟨hlow, hhigh⟩ := cbrtSeed_near hv hf
  obtain ⟨hle, hlt⟩ := hf
  have hpos := cbrtSeed_pos (Nat.log 2 v)
  refine ⟨le_newtonExact hpos hle, ?_⟩
  have hstep := newtonExact_mul_le v (cbrtSeed (Nat.log 2 v))
  generalize newtonExact v _ = z at hstep
  generalize cbrtSeed (Nat.log 2 v) = y at *
  have hcubic : 2 * y * (y * y) + (f + 1) ^ 3 ≤ 4 * (f + 1) * (y * y) := by
    generalize f + 1 = g at *
    zify at *
    have ha : (0 : Int) ≤ 3 * y - 2 * g := by linarith
    have hb : (0 : Int) ≤ 13 * g - 10 * y := by linarith
    nlinarith [mul_nonneg (mul_nonneg ha hb) hpos.le, mul_nonneg (mul_nonneg ha hb) (Int.natCast_nonneg g),
      mul_nonneg ha (sq_nonneg (g : Int)), mul_nonneg hb (sq_nonneg (g : Int))]
  refine Nat.le_of_mul_le_mul_right ?_ (Nat.mul_pos hpos hpos)
  linarith

/-- Seven refinements of the seed give the floor of the root, or one more (R202). -/
theorem cbrtRoot_near {v f : Nat} (hv : 2 ^ 21 ≤ v) (hlt : v < 2 ^ 256) (hf : IsFloorCbrt v f) :
    f ≤ (newtonExact v)^[7] (cbrtSeed (Nat.log 2 v)) ∧ (newtonExact v)^[7] (cbrtSeed (Nat.log 2 v)) ≤ f + 1 := by
  have hf2 : 2 ≤ f := by
    have : 2 ^ 3 < (f + 1) ^ 3 := lt_of_lt_of_le (by norm_num) (hv.trans hf.2.le)
    exact Nat.le_of_lt_succ (lt_of_pow_lt_pow_left' 3 this)
  have hfbound : f < 2 ^ 86 := lt_of_pow_lt_pow_left' 3 (hf.1.trans_lt (hlt.trans (by norm_num)))
  obtain ⟨hlow, hhigh⟩ := rootWithin_iterate hf hf2 6 (rootWithin_first hv hf)
  rw [Function.iterate_succ_apply]
  refine ⟨hlow, ?_⟩
  have hm : 2 ^ 86 < 3 ^ 2 ^ 6 := by norm_num
  generalize 3 ^ 2 ^ 6 = m at *
  have hexcess : m * (newtonExact v)^[6] (newtonExact v (cbrtSeed (Nat.log 2 v))) < m * (f + 2) := by linarith
  exact Nat.le_of_lt_succ (Nat.lt_of_mul_lt_mul_left hexcess)

/-! ## The bracket -/

/-- The scaled operand is the operand times the cube of what the root is multiplied by, of the `10^12` it is to carry
(R200, R202). -/
theorem cbrtScale_eq (x : Nat) : ∃ c, 0 < c ∧ (cbrtScale x).1 = x * c ^ 3 ∧ c * (cbrtScale x).2 = 10 ^ 12 := by
  unfold cbrtScale
  split
  · exact ⟨1, by norm_num⟩
  split
  · exact ⟨10 ^ 6, by norm_num⟩
  · exact ⟨10 ^ 12, by norm_num⟩

theorem le_cbrtScale {x : Nat} (hx : 0 < x) : 2 ^ 21 ≤ (cbrtScale x).1 := by
  have h1 : 2 ^ 21 ≤ cbrtT1 := by decide
  unfold cbrtScale
  split
  · exact h1.trans ‹_›
  split <;> dsimp only <;> omega

/-- Settles O60: the root of the scaled operand is met to one unit, which is at most one unit of the operand's root at
`10^12`. -/
theorem wadcbrtBracketsRoot : Obligations.WadcbrtBracketsRoot := by
  intro x f ⟨hle, hlt⟩
  rw [wadCbrtUnbounded]
  split
  · rename_i hx
    rw [hx, Nat.le_zero, pow_eq_zero_iff (by norm_num)] at hle
    simp [hle]
  rename_i hx
  have hpos : 0 < x.toNat := Nat.pos_of_ne_zero hx
  obtain ⟨c, hc, hscale, hfactor⟩ := cbrtScale_eq x.toNat
  have hroot := isFloorCbrt_nthRoot (cbrtScale x.toNat).1
  obtain ⟨hlow, hhigh⟩ := cbrtRoot_near (le_cbrtScale hpos) (cbrtScale_range hpos x.isLt).2 hroot
  obtain ⟨hrle, hrlt⟩ := hroot
  rw [cbrtRootUnbounded]
  generalize Nat.nthRoot 3 _ = r at *
  generalize (newtonExact _)^[7] _ = y at *
  have hbelow : f * c < r + 1 := by
    refine lt_of_pow_lt_pow_left' 3 (lt_of_le_of_lt ?_ hrlt)
    rw [mul_pow, hscale]
    exact Nat.mul_le_mul_right _ hle
  have habove : r < (f + 1) * c := by
    refine lt_of_pow_lt_pow_left' 3 (lt_of_le_of_lt hrle ?_)
    rw [mul_pow, hscale]
    exact Nat.mul_lt_mul_of_pos_right hlt (by positivity)
  rw [← hfactor, ← mul_assoc, ← mul_assoc]
  exact ⟨Nat.mul_le_mul_right _ (by omega), Nat.mul_le_mul_right _ (by omega)⟩

/-! ## The values of WADCBRT and CBRT -/

/-- By the bracket, WADCBRT is far below `2^256`. -/
theorem wadCbrtUnbounded_lt (x : Word) : wadCbrtUnbounded x.toNat < 2 ^ 256 := by
  have hroot := isFloorCbrt_nthRoot x.toNat
  have hlt : Nat.nthRoot 3 x.toNat < 2 ^ 86 :=
    lt_of_pow_lt_pow_left' 3 (hroot.1.trans_lt (x.isLt.trans (by norm_num)))
  have hle := (wadcbrtBracketsRoot x _ hroot).2
  omega

/-- Settles O56: no division of R202 meets a zero divisor, and the value fits. -/
theorem wadcbrtExactOverNaturals : Obligations.WadcbrtExactOverNaturals := by
  refine fun tag x s => ⟨?_, wadCbrtUnbounded_lt x⟩
  rw [exec_eq_respond_outcome, outcome, wadCbrt_eq, rootResult, u256_natCast]
  rfl

/-- Settles O57: from the seed on, every refinement of a positive root is positive. -/
theorem wadcbrtRootStaysPositive : Obligations.WadcbrtRootStaysPositive := by
  intro x n hx
  obtain ⟨hpos, hlt⟩ := cbrtScale_range (toNat_pos_of_ne_zero hx) x.isLt
  exact ⟨hpos, hlt, (newtonSteps_of_pos hpos n (cbrtSeed_pos _)).2⟩

/-- The wrapping cube of R205. -/
theorem mulW_cube_toNat (y : Nat) : (mulW (mulW (u256 y) (u256 y)) (u256 y)).toNat = y ^ 3 % 2 ^ 256 := by
  rw [mulW_eq, mulW_eq, u256_natCast, ← BitVec.ofNat_mul, ← BitVec.ofNat_mul, BitVec.toNat_ofNat, pow_three']

/-- CBRT in terms of WADCBRT (R206). -/
theorem cbrt_eq (x : Word) (up : Bool) : cbrt x up =
    some (if up = true ∧ (wadCbrtUnbounded x.toNat / 10 ^ 12) ^ 3 % 2 ^ 256 ≠ x.toNat then
      wadCbrtUnbounded x.toNat / 10 ^ 12 + 1 else wadCbrtUnbounded x.toNat / 10 ^ 12) := by
  simp only [cbrt, wadCbrt_eq, Bool.and_eq_true, bne_iff_ne, ne_eq, ← BitVec.toNat_inj, mulW_cube_toNat]

/-- Settles O58: the value of R206, with the cube of R205. -/
theorem cbrtFromWadcbrt : Obligations.CbrtFromWadcbrt := by
  intro tag up x s
  rw [exec_eq_respond_outcome, outcome, cbrt_eq, rootResult, u256_natCast]
  rfl

/-- Settles O59: seven refinements of the seed of `2^171 − 1` end one above the floor. -/
theorem cbrtMissesFloorBelowCube : Obligations.CbrtMissesFloorBelowCube := by
  have hdown : cbrt (BitVec.ofNat 256 (2 ^ 171 - 1)) false = some (2 ^ 57) := by decide +kernel
  have hup : cbrt (BitVec.ofNat 256 (2 ^ 171 - 1)) true = some (2 ^ 57 + 1) := by decide +kernel
  intro tag s
  rw [exec_eq_respond_outcome, exec_eq_respond_outcome, outcome, outcome, hdown, hup, rootResult, rootResult]
  exact ⟨rfl, rfl, by norm_num, by norm_num⟩

end Sys2Proof.Machine

/-! # The status of every opcode (60_exceptions.md R220, R222, R224) -/

namespace Sys2Proof.Machine

/-- An executed instruction has put its outcome on the response port. -/
theorem outcome_of_exec {i : Instr} {s t : State} {r : Response} (h : exec i s = .next t) (hr : t.rsp = some r) :
    ∃ o, outcome i = some o ∧ r = o.toResponse i.tag := by
  rw [exec_eq_respond_outcome, respond_next_iff] at h
  obtain ⟨o, ho, rfl⟩ := h
  exact ⟨o, ho, (Option.some.inj hr).symm⟩

theorem ok_of_neverFails {i : Instr} {o : Result} (ho : outcome i = some o) (h : i.neverFails = true) :
    ∃ w, o = .ok w 0 := by
  obtain ⟨w, hw⟩ := outcome_ok_of_neverFails h
  exact ⟨w, Option.some.inj (ho.symm.trans hw)⟩

/-- WADLN of an operand that is not negative succeeds, with AUX 0. -/
theorem wadLn_of_nonneg {x : Word} (h : 0 ≤ s256 x) : ∃ w, wadLn lnConst (s256 x) = some (.ok w 0) := by
  rcases h.eq_or_lt with h0 | hpos
  · exact ⟨0, by rw [← h0]; rfl⟩
  · exact ⟨_, (wadLn_of_pos hpos).1⟩

/-- WADEXP of an operand below the upper threshold succeeds, with AUX 0. -/
theorem wadExp_of_lt_hi {x : Int} (h : x < expConst.hi) : ∃ w, wadExp expConst x = some (.ok w 0) := by
  rcases le_or_gt x expConst.lo with hlo | hlo
  · exact ⟨0, wadExp_of_le_lo hlo⟩
  · exact ⟨_, wadExp_of_domain hlo h⟩

/-- The status of CEILDIV. -/
theorem ceildiv_status (tag : BitVec 8) (x y : Word) :
    (((ceildiv x.toNat y.toNat).toResponse tag).status = .divByZero ↔ y = 0) ∧
    (y ≠ 0 → ((ceildiv x.toNat y.toNat).toResponse tag).status = .ok) ∧
    ((ceildiv x.toNat y.toNat).toResponse tag).aux = 0 := by
  by_cases hy : y = 0
  · subst hy
    exact ⟨⟨fun _ => rfl, fun _ => rfl⟩, fun h => absurd rfl h, rfl⟩
  · rw [ceildiv_of_pos (toNat_pos_of_ne_zero hy)]
    exact ⟨⟨nofun, fun h => absurd h hy⟩, fun _ => rfl, rfl⟩

/-- The status of MULDIV, by its exact quotient. -/
theorem muldiv_status (tag : BitVec 8) (x y d : Word) (up : Bool) :
    (((muldiv x y d up).toResponse tag).status = .divByZero ↔ d = 0) ∧
    (((muldiv x y d up).toResponse tag).status = .overflow ↔ d ≠ 0 ∧ 2 ^ 256 - 1 < muldivExact x y d up) ∧
    (((muldiv x y d up).toResponse tag).status = .ok ↔ d ≠ 0 ∧ muldivExact x y d up ≤ 2 ^ 256 - 1) := by
  by_cases hd : d = 0
  · subst hd
    simp [muldiv, Result.toResponse]
  · rw [muldiv_eq_closed hd, muldivClosed]
    split
    · rename_i hle
      exact ⟨⟨nofun, fun h => absurd h hd⟩, ⟨nofun, fun h => absurd hle h.2.not_ge⟩,
        ⟨fun _ => ⟨hd, hle⟩, fun _ => rfl⟩⟩
    · rename_i hgt
      exact ⟨⟨nofun, fun h => absurd h hd⟩, ⟨fun _ => ⟨hd, not_le.mp hgt⟩, fun _ => rfl⟩,
        ⟨nofun, fun h => absurd h.2 hgt⟩⟩

/-- Settles O27: each opcode's outcome in each of its cases. -/
theorem statusesOfEachOpcode : Obligations.StatusesOfEachOpcode := by
  intro i s t r hexec hr
  obtain ⟨o, ho, rfl⟩ := outcome_of_exec hexec hr
  cases i with
  | avgu | avgs | isneg | log2 | log10 | log256 | cbrt | wadcbrt =>
    obtain ⟨w, rfl⟩ := ok_of_neverFails ho rfl
    exact ⟨rfl, rfl⟩
  | ceildiv tag x y =>
    cases ho
    exact ceildiv_status tag x y
  | muldiv tag up x y d =>
    cases ho
    exact muldiv_status tag x y d up
  | wadln tag x =>
    rcases lt_or_ge (s256 x) 0 with h | h
    · cases ho.symm.trans (wadLn_of_neg h)
      exact ⟨⟨fun _ => h, fun _ => rfl⟩, fun h' => absurd h' h.not_ge, rfl⟩
    · obtain ⟨w, hw⟩ := wadLn_of_nonneg h
      cases ho.symm.trans hw
      exact ⟨⟨nofun, fun h' => absurd h' h.not_gt⟩, fun _ => rfl, rfl⟩
  | wadexp tag x =>
    rcases lt_or_ge (s256 x) expConst.hi with h | h
    · obtain ⟨w, hw⟩ := wadExp_of_lt_hi h
      cases ho.symm.trans hw
      exact ⟨⟨nofun, fun h' => absurd h' h.not_ge⟩, fun _ => rfl, rfl⟩
    · cases ho.symm.trans (wadExp_of_hi_le h)
      exact ⟨⟨fun _ => h, fun _ => rfl⟩, fun h' => absurd h' h.not_gt, rfl⟩

end Sys2Proof.Machine
